-- ==== Sys2Proof/Word.lean ====
section
/-! DEFINITION. The plain data the spec's values are made of: bits, nibbles, bytes, the fixed-size
register banks of five and four entries, colours and packets (spec/00_scope.md R15, R16, R19). -/

namespace Sys2Proof

/-- A DigitalState: 1 = released (high), 0 = pressed (low) (00_scope.md glossary, D30). -/
abbrev Bit := BitVec 1

/-- An integer in [0,15] (R15). -/
abbrev Nibble := BitVec 4

/-- An integer in [0,255] (R15). -/
abbrev Byte := BitVec 8

/-- A bank of five like things, index 0 first (R8: 5 upper buttons, 5 lower buttons, 5 sliders). -/
structure Five (α : Type) where
  e0 : α
  e1 : α
  e2 : α
  e3 : α
  e4 : α
  deriving DecidableEq, Repr

/-- A bank of four like things, index 0 first (R8: 4 knobs). -/
structure Four (α : Type) where
  e0 : α
  e1 : α
  e2 : α
  e3 : α
  deriving DecidableEq, Repr

namespace Five

/-- Entry `i`. -/
def get {α : Type} (v : Five α) (i : Fin 5) : α :=
  match i with
  | 0 => v.e0
  | 1 => v.e1
  | 2 => v.e2
  | 3 => v.e3
  | 4 => v.e4

/-- The bank with entry `i` replaced. -/
def set {α : Type} (v : Five α) (i : Fin 5) (a : α) : Five α :=
  match i with
  | 0 => { v with e0 := a }
  | 1 => { v with e1 := a }
  | 2 => { v with e2 := a }
  | 3 => { v with e3 := a }
  | 4 => { v with e4 := a }

/-- The bank whose entry `i` is `f i`. -/
def ofFn {α : Type} (f : Fin 5 → α) : Five α := ⟨f 0, f 1, f 2, f 3, f 4⟩

/-- The bank whose entries are all `a`. -/
def const {α : Type} (a : α) : Five α := ⟨a, a, a, a, a⟩

/-- The entries, index 0 first. -/
def toList {α : Type} (v : Five α) : List α := [v.e0, v.e1, v.e2, v.e3, v.e4]

end Five

namespace Four

/-- Entry `i`. -/
def get {α : Type} (v : Four α) (i : Fin 4) : α :=
  match i with
  | 0 => v.e0
  | 1 => v.e1
  | 2 => v.e2
  | 3 => v.e3

/-- The bank with entry `i` replaced. -/
def set {α : Type} (v : Four α) (i : Fin 4) (a : α) : Four α :=
  match i with
  | 0 => { v with e0 := a }
  | 1 => { v with e1 := a }
  | 2 => { v with e2 := a }
  | 3 => { v with e3 := a }

/-- The bank whose entry `i` is `f i`. -/
def ofFn {α : Type} (f : Fin 4 → α) : Four α := ⟨f 0, f 1, f 2, f 3⟩

/-- The bank whose entries are all `a`. -/
def const {α : Type} (a : α) : Four α := ⟨a, a, a, a⟩

/-- The entries, index 0 first. -/
def toList {α : Type} (v : Four α) : List α := [v.e0, v.e1, v.e2, v.e3]

end Four

/-- The `RGB` triple of bytes of R19. -/
structure Rgb where
  r : Byte
  g : Byte
  b : Byte
  deriving DecidableEq, Repr, Inhabited

/-- The fixed 4-byte record of 30_encoding.md R63, header first (20_memory.md R49). -/
structure Packet where
  header : Byte
  status : Byte
  data1 : Byte
  data2 : Byte
  deriving DecidableEq, Repr

/-- The tagged variant of R19: channel, then pitch and velocity, or controller and value. -/
inductive MidiEvent
  | noteOn (ch pitch vel : Nat)
  | noteOff (ch pitch vel : Nat)
  | controlChange (ch ctrl val : Nat)
  deriving DecidableEq, Repr

end Sys2Proof
end

