-- ==== Sys2Proof/Config.lean ====
section
/-! DEFINITION. The configuration, fixed for the life of the block (spec/10_state.md R33), the
reset parameters (R40 to R42) and the one free value, `ANY_RGB` (spec/44_led_mapper.md R162). What is
computed from it (`CF`, the checks) stands in Machine/Operands.lean. -/

namespace Sys2Proof

/-- `SCAN_ORDER` (00_scope.md R12). -/
inductive ScanOrder
  | grouped
  | interleaved
  deriving DecidableEq, Repr

/-- Every named parameter of 10_state.md R33 and R40 to R42. -/
structure Config where
  /-- `R`, the ADC resolution in bits (R6); 12 in this hardware. -/
  R : Nat
  /-- `UPPER_ID` (R10). -/
  upperId : Five Nat
  /-- `LOWER_ID` (R10). -/
  lowerId : Five Nat
  /-- `SLIDER_ID` (R10): input identifiers, which reach no output. -/
  sliderId : Five Nat
  /-- `KNOB_ID` (R10): input identifiers, which reach no output. -/
  knobId : Four Nat
  /-- `SCAN_ORDER` (R12). -/
  scanOrder : ScanOrder
  /-- `RESET_UPPER_LAST` (R40). -/
  resetUpperLast : Five Bit
  /-- `RESET_LOWER_LAST` (R40). -/
  resetLowerLast : Five Bit
  /-- `RESET_SLIDER_LAST` (R41). -/
  resetSliderLast : Five Nat
  /-- `RESET_KNOB_LAST` (R41). -/
  resetKnobLast : Four Nat
  /-- `LED_INIT[0..NLED-1]` (R42); its length is `NLED`. -/
  ledInit : List Rgb
  deriving DecidableEq, Repr

namespace Config

/-- `NLED` (R11): the table `LED_INIT[0..NLED-1]` has exactly that many entries. -/
def nled (c : Config) : Nat := c.ledInit.length

/-- `ANY_RGB`, FREE VALUE: "an unconstrained draw of three bytes, chosen freshly for each write and
under no law" (44_led_mapper.md R162). The argument numbers the draw (assumption log entry 5). -/
opaque anyRgb : Nat → Rgb

/-- The configuration State.reset takes. DESIGN CHOICE (assumption log entries 1 and 2): the tables,
`NLED`, `SCAN_ORDER` and the reset values are OPEN in the spec; these are the values of `EXCFG`
(92_eei_decisions.md D29), and `R` is 12 (R6). -/
def reference : Config where
  R := 12
  upperId := ⟨22, 24, 26, 28, 30⟩
  lowerId := ⟨23, 25, 27, 29, 31⟩
  sliderId := ⟨0, 1, 2, 3, 4⟩
  knobId := ⟨5, 6, 7, 8⟩
  scanOrder := .grouped
  resetUpperLast := .const 0
  resetLowerLast := .const 0
  resetSliderLast := .const 0
  resetKnobLast := .const 0
  ledInit := List.replicate 5 ⟨0, 0, 0⟩

end Config

end Sys2Proof
end

