-- ==== Sys2Proof/Syntax.lean ====
section
/-! DEFINITION. The syntax: one constructor of `Instr` for each of the 22 rows of
spec/opcode_table.json, with their operands (spec/30_encoding.md R63 to R66, R78, R81). -/

namespace Sys2Proof

/-- The input snapshot `In` of R78. The analog entries are integers, so that a reading outside
[0, 2^R - 1], which is refused, can be written down. -/
structure Snapshot where
  upper : Five Bit
  lower : Five Bit
  slider : Five Int
  knob : Four Int
  deriving DecidableEq, Repr

/-- What a received packet carries beside its CIN: `cable`, and the status and data bytes raw (R65). -/
structure RxBody where
  cable : Nibble
  status : Byte
  data1 : Byte
  data2 : Byte
  deriving DecidableEq, Repr

/-- The rows of the opcode table. -/
inductive Instr
  /-- `TX_NOTE_ON`, 42_encoder.md R120. -/
  | txNoteOn (ch pitch vel : Nat)
  /-- `TX_NOTE_OFF`, R121. -/
  | txNoteOff (ch pitch vel : Nat)
  /-- `TX_CC`, R122. -/
  | txCc (ch ctrl val : Nat)
  /-- `RX_EMPTY`, 43_decoder.md R132: header 0x00; the other bytes are not examined. -/
  | rxEmpty (status data1 data2 : Byte)
  /-- `RX_CIN0`, R133: CIN 0x0 with a non-zero cable. -/
  | rxCin0 (b : RxBody)
  /-- `RX_CIN1`, R134. -/
  | rxCin1 (b : RxBody)
  /-- `RX_CIN2`, R135. -/
  | rxCin2 (b : RxBody)
  /-- `RX_CIN3`, R136. -/
  | rxCin3 (b : RxBody)
  /-- `RX_CIN4`, R137. -/
  | rxCin4 (b : RxBody)
  /-- `RX_CIN5`, R138. -/
  | rxCin5 (b : RxBody)
  /-- `RX_CIN6`, R139. -/
  | rxCin6 (b : RxBody)
  /-- `RX_CIN7`, R140. -/
  | rxCin7 (b : RxBody)
  /-- `RX_CIN8`, R141. -/
  | rxCin8 (b : RxBody)
  /-- `RX_CIN9`, R142. -/
  | rxCin9 (b : RxBody)
  /-- `RX_CINA`, R143. -/
  | rxCinA (b : RxBody)
  /-- `RX_CINB`, R144. -/
  | rxCinB (b : RxBody)
  /-- `RX_CINC`, R145. -/
  | rxCinC (b : RxBody)
  /-- `RX_CIND`, R146. -/
  | rxCinD (b : RxBody)
  /-- `RX_CINE`, R147. -/
  | rxCinE (b : RxBody)
  /-- `RX_CINF`, R148. -/
  | rxCinF (b : RxBody)
  /-- `TICK`, 41_tracker.md R100. -/
  | tick (inp : Snapshot)
  /-- `RX_POLL`, 43_decoder.md R130: `none` is a `Receive()` that returned `NONE`. -/
  | rxPoll (p : Option Packet)
  deriving DecidableEq, Repr

end Sys2Proof
end

