-- ==== Sys2Proof/Machine/Operands.lean ====
section
/-! DEFINITION. The operands: the constants, what the configuration determines, and the domains in
which an operand is accepted (spec/00_scope.md R6 to R14, spec/30_encoding.md R78,
spec/60_exceptions.md R171). -/

namespace Sys2Proof

/-- `CF = 2^R / 128`, truncating (00_scope.md R7). -/
def Config.cf (c : Config) : Nat := 2 ^ c.R / 128

/-- `CH`, the channel of every event a `TICK` emits (R9). -/
def Config.ch : Nat := 0

/-- `VEL_ON` (R14). -/
def Config.velOn : Nat := 127

/-- `VEL_OFF` (R14). -/
def Config.velOff : Nat := 0

/-- Every button identifier lies in [0,127] (R10). -/
def Config.idsInRange (c : Config) : Bool :=
  (c.upperId.toList ++ c.lowerId.toList).all (· ≤ 127)

/-- The conditions on a configuration whose breach is refused (60_exceptions.md R171). -/
def Config.admissible (c : Config) : Bool := 7 ≤ c.R && c.idsInRange && 5 ≤ c.nled

/-- The reset baselines lie in [0, 2^R - 1] (10_state.md R41). -/
def Config.resetInRange (c : Config) : Bool :=
  (c.resetSliderLast.toList ++ c.resetKnobLast.toList).all (· < 2 ^ c.R)

/-- A well-formed configuration: admissible, with reset baselines in the range R41 gives them. -/
def Config.wf (c : Config) : Bool := c.admissible && c.resetInRange

/-- The domain of the three encoders: `ch` a nibble, the other two 7-bit values
(42_encoder.md R120 to R122). -/
def inEncodeDomain (ch a b : Nat) : Bool := ch ≤ 15 && a ≤ 127 && b ≤ 127

/-- An AnalogSample under `c`: an integer in [0, 2^R - 1] (00_scope.md glossary). -/
def sampleInRange (c : Config) (v : Int) : Bool := 0 ≤ v && v.toNat < 2 ^ c.R

/-- Every analog reading of the snapshot lies in [0, 2^R - 1] (30_encoding.md R78). -/
def Snapshot.inRange (c : Config) (inp : Snapshot) : Bool :=
  (inp.slider.toList ++ inp.knob.toList).all (sampleInRange c)

/-- The reading of slider `i` as the AnalogSample it is once the range check has passed. -/
def Snapshot.sliderSample (inp : Snapshot) (i : Fin 5) : Nat := (inp.slider.get i).toNat

/-- The reading of knob `i` as the AnalogSample it is once the range check has passed. -/
def Snapshot.knobSample (inp : Snapshot) (i : Fin 4) : Nat := (inp.knob.get i).toNat

/-- The snapshot a tick takes through the input capability: one read per control, each at the
identifier its table gives (30_encoding.md R78, 60_exceptions.md R182). -/
def Snapshot.ofReads (c : Config) (readDigital : Nat → Bit) (readAnalog : Nat → Int) : Snapshot where
  upper := .ofFn fun i => readDigital (c.upperId.get i)
  lower := .ofFn fun i => readDigital (c.lowerId.get i)
  slider := .ofFn fun i => readAnalog (c.sliderId.get i)
  knob := .ofFn fun i => readAnalog (c.knobId.get i)

end Sys2Proof
end

