-- ==== Sys2Proof/WellFormed.lean ====
section
/-! DEFINITION. Which instructions are well formed: operands in the domains the spec gives them. -/

namespace Sys2Proof

/-- The check of one instruction under a configuration. -/
def Instr.wellFormed (c : Config) : Instr → Bool
  | .txNoteOn ch pitch vel => inEncodeDomain ch pitch vel
  | .txNoteOff ch pitch vel => inEncodeDomain ch pitch vel
  | .txCc ch ctrl val => inEncodeDomain ch ctrl val
  | .rxEmpty _ _ _ => true
  | .rxCin0 b => b.cable != 0
  | .rxCin1 _ => true
  | .rxCin2 _ => true
  | .rxCin3 _ => true
  | .rxCin4 _ => true
  | .rxCin5 _ => true
  | .rxCin6 _ => true
  | .rxCin7 _ => true
  | .rxCin8 _ => true
  | .rxCin9 _ => true
  | .rxCinA _ => true
  | .rxCinB _ => true
  | .rxCinC _ => true
  | .rxCinD _ => true
  | .rxCinE _ => true
  | .rxCinF _ => true
  | .tick inp => inp.inRange c
  | .rxPoll _ => true

end Sys2Proof
end

