-- ==== Sys2Proof/Decode.lean ====
section
/-! DEFINITION. The packet's fields and word view (spec/30_encoding.md R63 to R66,
spec/20_memory.md R49 to R51), the decoder of a packet's bytes by direction (R66, R69), and after it
the encoder of an instruction. -/

namespace Sys2Proof

/-! ### Fields and views of a packet -/

/-- The high nibble of a byte. -/
def hiNibble (b : Byte) : Nibble := b.extractLsb' 4 4

/-- The low nibble of a byte. -/
def loNibble (b : Byte) : Nibble := b.extractLsb' 0 4

/-- The byte with high nibble `hi` and low nibble `lo`. -/
def byteOfNibbles (hi lo : Nibble) : Byte := hi ++ lo

/-- `cable = header[7:4]` (R65). -/
def Packet.cable (p : Packet) : Nibble := hiNibble p.header

/-- `cin = header[3:0]` (R65). -/
def Packet.cin (p : Packet) : Nibble := loNibble p.header

/-- `kind = status[7:4]` (R65). -/
def Packet.kind (p : Packet) : Nibble := hiNibble p.status

/-- `chan = status[3:0]` (R65). -/
def Packet.chan (p : Packet) : Nibble := loNibble p.status

/-- The four bytes in wire order, header first (20_memory.md R49). -/
def Packet.bytes (p : Packet) : List Byte := [p.header, p.status, p.data1, p.data2]

/-- The word view `header << 24 | status << 16 | data1 << 8 | data2` (R51). -/
def Packet.toWord (p : Packet) : BitVec 32 := p.header ++ p.status ++ p.data1 ++ p.data2

/-- What a received packet carries beside its CIN (R65). -/
def Packet.body (p : Packet) : RxBody := ⟨p.cable, p.status, p.data1, p.data2⟩

/-! ### The decoder -/

/-- Sent by the block, or received by it: the table's `tx-packet` and `rx-packet` rows (R81). -/
inductive Direction
  | tx
  | rx
  deriving DecidableEq, Repr

/-- Why bytes are no packet of a direction. -/
inductive DecodeError
  /-- A packet is exactly four bytes (20_memory.md R54); these are `n`. -/
  | notFourBytes (n : Nat)
  /-- Four bytes that are none of the three packets the encoder produces (R66). -/
  | notATxPacket
  deriving DecidableEq, Repr

/-- The class of a received packet: the whole-header test for `RX_EMPTY` first (R70), then the CIN
(R69). Total on all 2^32 patterns (R75). -/
def decodeRx (p : Packet) : Instr :=
  if p.header = 0x00#8 then .rxEmpty p.status p.data1 p.data2
  else if p.cin = 0x0#4 then .rxCin0 p.body
  else if p.cin = 0x1#4 then .rxCin1 p.body
  else if p.cin = 0x2#4 then .rxCin2 p.body
  else if p.cin = 0x3#4 then .rxCin3 p.body
  else if p.cin = 0x4#4 then .rxCin4 p.body
  else if p.cin = 0x5#4 then .rxCin5 p.body
  else if p.cin = 0x6#4 then .rxCin6 p.body
  else if p.cin = 0x7#4 then .rxCin7 p.body
  else if p.cin = 0x8#4 then .rxCin8 p.body
  else if p.cin = 0x9#4 then .rxCin9 p.body
  else if p.cin = 0xA#4 then .rxCinA p.body
  else if p.cin = 0xB#4 then .rxCinB p.body
  else if p.cin = 0xC#4 then .rxCinC p.body
  else if p.cin = 0xD#4 then .rxCinD p.body
  else if p.cin = 0xE#4 then .rxCinE p.body
  else .rxCinF p.body

/-- The packet of the encode table a sent packet is: the rows' fixed bits 31..20, and bits 15 and 7
clear (R66; opcode_table.json). -/
def decodeTx (p : Packet) : Option Instr :=
  if p.data1.toNat ≤ 127 ∧ p.data2.toNat ≤ 127 then
    if p.header = 0x09#8 ∧ p.kind = 0x9#4 then
      some (.txNoteOn p.chan.toNat p.data1.toNat p.data2.toNat)
    else if p.header = 0x08#8 ∧ p.kind = 0x8#4 then
      some (.txNoteOff p.chan.toNat p.data1.toNat p.data2.toNat)
    else if p.header = 0x0B#8 ∧ p.kind = 0xB#4 then
      some (.txCc p.chan.toNat p.data1.toNat p.data2.toNat)
    else none
  else none

/-- The instruction four bytes are in a direction; any other bytes are rejected by name. -/
def decode (d : Direction) : List Byte → Except DecodeError Instr
  | [h, s, d1, d2] =>
    match d with
    | .rx => .ok (decodeRx ⟨h, s, d1, d2⟩)
    | .tx =>
      match decodeTx ⟨h, s, d1, d2⟩ with
      | some i => .ok i
      | none => .error .notATxPacket
  | bs => .error (.notFourBytes bs.length)

/-! ### The encoder of instructions -/

/-- `0x09, 0x90 | ch, pitch, vel` (R66). -/
def noteOnPacket (ch pitch vel : Nat) : Packet :=
  ⟨0x09#8, 0x90#8 ||| BitVec.ofNat 8 ch, BitVec.ofNat 8 pitch, BitVec.ofNat 8 vel⟩

/-- `0x08, 0x80 | ch, pitch, vel` (R66). -/
def noteOffPacket (ch pitch vel : Nat) : Packet :=
  ⟨0x08#8, 0x80#8 ||| BitVec.ofNat 8 ch, BitVec.ofNat 8 pitch, BitVec.ofNat 8 vel⟩

/-- `0x0B, 0xB0 | ch, ctrl, val` (R66). -/
def ccPacket (ch ctrl val : Nat) : Packet :=
  ⟨0x0B#8, 0xB0#8 ||| BitVec.ofNat 8 ch, BitVec.ofNat 8 ctrl, BitVec.ofNat 8 val⟩

/-- A received packet with the given CIN: the inverse of R65's field extraction. -/
def rxPacket (cin : Nibble) (b : RxBody) : Packet :=
  ⟨byteOfNibbles b.cable cin, b.status, b.data1, b.data2⟩

/-- The packet of an instruction and its direction; `TICK` and `RX_POLL` have no bit pattern (R81). -/
def encodePacket : Instr → Option (Direction × Packet)
  | .txNoteOn ch pitch vel => some (.tx, noteOnPacket ch pitch vel)
  | .txNoteOff ch pitch vel => some (.tx, noteOffPacket ch pitch vel)
  | .txCc ch ctrl val => some (.tx, ccPacket ch ctrl val)
  | .rxEmpty s d1 d2 => some (.rx, ⟨0x00#8, s, d1, d2⟩)
  | .rxCin0 b => some (.rx, rxPacket 0x0#4 b)
  | .rxCin1 b => some (.rx, rxPacket 0x1#4 b)
  | .rxCin2 b => some (.rx, rxPacket 0x2#4 b)
  | .rxCin3 b => some (.rx, rxPacket 0x3#4 b)
  | .rxCin4 b => some (.rx, rxPacket 0x4#4 b)
  | .rxCin5 b => some (.rx, rxPacket 0x5#4 b)
  | .rxCin6 b => some (.rx, rxPacket 0x6#4 b)
  | .rxCin7 b => some (.rx, rxPacket 0x7#4 b)
  | .rxCin8 b => some (.rx, rxPacket 0x8#4 b)
  | .rxCin9 b => some (.rx, rxPacket 0x9#4 b)
  | .rxCinA b => some (.rx, rxPacket 0xA#4 b)
  | .rxCinB b => some (.rx, rxPacket 0xB#4 b)
  | .rxCinC b => some (.rx, rxPacket 0xC#4 b)
  | .rxCinD b => some (.rx, rxPacket 0xD#4 b)
  | .rxCinE b => some (.rx, rxPacket 0xE#4 b)
  | .rxCinF b => some (.rx, rxPacket 0xF#4 b)
  | .tick _ => none
  | .rxPoll _ => none

/-- The bytes of an instruction, header first, and their direction. -/
def encode (i : Instr) : Option (Direction × List Byte) :=
  (encodePacket i).map fun (d, p) => (d, p.bytes)

/-! ### The opcode table's numbering -/

/-- The bytes of a table word: `nbits` bits of `w`, every higher bit 0, laid out header first. A word
of at most 32 bits gives one packet's four bytes (20_memory.md R51). -/
def tableBytes (nbits w : Nat) : List Byte :=
  let v := w % 2 ^ nbits
  let n := max 4 ((nbits + 7) / 8)
  (List.range n).map fun k => BitVec.ofNat 8 (v / 2 ^ (8 * (n - 1 - k)))

/-- The direction a bare table word is read in: a word of one of the three `tx-packet` patterns is
read as sent, any other as received. DESIGN CHOICE (assumption log entry 8): the table gives one word
to a row of each direction. -/
def tableDirection (bytes : List Byte) : Direction :=
  match decode .tx bytes with
  | .ok _ => .tx
  | .error _ => .rx

/-- The instruction the decoder reads from a word of the opcode table. -/
def decodeTableWord (nbits w : Nat) : Option Instr :=
  (decode (tableDirection (tableBytes nbits w)) (tableBytes nbits w)).toOption

end Sys2Proof
end

