-- ==== Sys2Proof/Machine/State.lean ====
section
/-! DEFINITION. The state of the block (spec/10_state.md R37) with the model's own fields, the reasons
an operation is refused, and the state right after reset (R40 to R44). -/

namespace Sys2Proof.Machine

open Sys2Proof

/-- Why a packet is ignored (43_decoder.md R131). -/
inductive IgnoreReason
  | reserved
  | twoByte
  | sysEx
  | singleByte
  deriving DecidableEq, Repr

/-- The payload of `Voice3` (R131). -/
structure Voice3 where
  cin : Nibble
  cable : Nibble
  status : Byte
  chan : Nibble
  data1 : Byte
  data2 : Byte
  deriving DecidableEq, Repr

/-- `DecodeResult` (R131). -/
inductive DecodeResult
  | empty
  | ignored (reason : IgnoreReason) (cin : Nibble)
  | voice3 (v : Voice3)
  deriving DecidableEq, Repr

/-- What the environment asks of the block between two operations (60_exceptions.md R181). -/
inductive Request
  /-- `RESET` (70_reset_and_hazards.md R190). -/
  | reset
  /-- `TICK(In)` (41_tracker.md R100). -/
  | tick (inp : Snapshot)
  /-- `RX(p)`; `none` is `NONE` (43_decoder.md R130). -/
  | rx (p : Option Packet)
  /-- A packet's bytes in a direction, run as the opcode-table row they are. None of the three
  interactions of R181: the model's own way to run one row (log entries 4 and 7). -/
  | wire (d : Direction) (bytes : List Byte)
  deriving DecidableEq, Repr

/-- The machine's state. Plain data. -/
structure State where
  /-- MODEL: the read-only configuration of R33 (log entry 1). -/
  cfg : Config
  /-- `upperLast[0..4]` (R21). -/
  upperLast : Five Bit
  /-- `lowerLast[0..4]` (R22). -/
  lowerLast : Five Bit
  /-- `sliderLast[0..4]` (R23), each in [0, 2^R - 1]. -/
  sliderLast : Five Nat
  /-- `knobLast[0..3]` (R24), each in [0, 2^R - 1]. -/
  knobLast : Four Nat
  /-- `led[0..NLED-1]` (R26). -/
  led : List Rgb
  /-- The TX stream, first packet first (R30). -/
  tx : List Packet
  /-- The flush log, first flush first (R31). -/
  flushes : List (List Rgb)
  /-- MODEL: the class the last `RX` returned, an output (43_decoder.md R130; log entry 6). -/
  report : Option DecodeResult
  /-- MODEL: the packet the last encode row run by itself gave, the output of that sub-operation
  (42_encoder.md R125; log entry 7). -/
  encoded : Option Packet
  /-- MODEL: how many `ANY_RGB` values have been drawn (44_led_mapper.md R162; log entry 5). -/
  draws : Nat
  /-- MODEL: the operations the environment has asked for, oldest first (R20, R36; log entry 3). -/
  pending : List Request
  deriving DecidableEq, Repr

/-- Faults. There are none: "it raises no exception of any kind" (00_scope.md R17, 60_exceptions.md
R170). -/
inductive Fault
  deriving DecidableEq, Repr

/-- Refusals (60_exceptions.md R171). Each is raised before the operation changes any state (R173). -/
inductive Refusal
  /-- Raised by `exec`, for an instruction the model gives no meaning. No arm does. Safe. -/
  | notModelled (mnemonic : String)
  /-- `ConfigR`: R < 7. Raised at the fetch of any operation. Safe: the spec gives it no meaning. -/
  | configR
  /-- `ConfigId`: a button identifier above 127. Raised at the fetch of any operation. Safe. -/
  | configId
  /-- `ConfigNled`: NLED < 5. Raised at the fetch of any operation. Safe. -/
  | configNled
  /-- `AnalogOutOfRange`: a snapshot's analog value outside [0, 2^R - 1]. Raised by `TICK`. Safe. -/
  | analogOutOfRange
  /-- `EncodeOutOfDomain`: an encoder argument out of range. Raised by the TX rows. Safe. -/
  | encodeOutOfDomain
  /-- Bytes that are no packet of the direction they were placed in (20_memory.md R54; log entry 10).
  Raised at the fetch of a `wire` request. Safe. -/
  | undecodable (e : DecodeError)
  deriving DecidableEq, Repr

/-- The state right after `RESET` under a configuration, with nothing asked for yet: R40 to R43. -/
def State.resetWith (c : Config) : State where
  cfg := c
  upperLast := c.resetUpperLast
  lowerLast := c.resetLowerLast
  sliderLast := c.resetSliderLast
  knobLast := c.resetKnobLast
  led := c.ledInit
  tx := []
  flushes := []
  report := none
  encoded := none
  draws := 0
  pending := []

/-- The machine right after reset, under the reference configuration (log entries 1 and 2). -/
def State.reset : State := State.resetWith Config.reference

end Sys2Proof.Machine
end

