-- ==== Sys2Proof/Machine/Ops.lean ====
section
/-! DEFINITION. The named operations every meaning is built from: the registers, `Send`, `SetPixel`,
`Flush` and `ANY_RGB` (spec/00_scope.md R17, spec/60_exceptions.md R182 to R184), `RESET`
(spec/70_reset_and_hazards.md R190), refusal and the fetch of the environment's next request
(spec/60_exceptions.md R171, R181). The block takes no exception and returns from none (R170, R174):
refusal is its one abnormal outcome. -/

namespace Sys2Proof.Machine

open Sys2Proof

/-- What a step answers on this hardware. -/
abbrev Result := Host.Outcome State Fault Refusal

/-- One operation after another: the second starts in the state the first reaches, and a fault or a
refusal of the first is the outcome of both. -/
def andThen (r : Result) (f : State → Result) : Result :=
  match r with
  | .next s => f s
  | .fault e => .fault e
  | .refused e => .refused e

/-- The two rows of buttons. -/
inductive Row
  | upper
  | lower
  deriving DecidableEq, Repr

/-- `UPPER_ID` or `LOWER_ID` (R10). -/
def buttonIds (c : Config) (row : Row) : Five Nat :=
  match row with
  | .upper => c.upperId
  | .lower => c.lowerId

/-- The `last` registers of a row (10_state.md R21, R22). -/
def State.buttonLast (s : State) (row : Row) : Five Bit :=
  match row with
  | .upper => s.upperLast
  | .lower => s.lowerLast

/-- `st.rowLast[i] <- b`. -/
def State.setButtonLast (s : State) (row : Row) (i : Fin 5) (b : Bit) : State :=
  match row with
  | .upper => { s with upperLast := s.upperLast.set i b }
  | .lower => { s with lowerLast := s.lowerLast.set i b }

/-- `st.sliderLast[i] <- v`. -/
def State.setSliderLast (s : State) (i : Fin 5) (v : Nat) : State :=
  { s with sliderLast := s.sliderLast.set i v }

/-- `st.knobLast[i] <- v`. -/
def State.setKnobLast (s : State) (i : Fin 4) (v : Nat) : State :=
  { s with knobLast := s.knobLast.set i v }

/-- `Send(pkt)` appends the packet to the transmit stream (R17, R30). -/
def State.send (s : State) (p : Packet) : State := { s with tx := s.tx ++ [p] }

/-- `SetPixel(i, rgb)` writes LED buffer entry `i` (R17). -/
def State.setPixel (s : State) (i : Nat) (c : Rgb) : State := { s with led := s.led.set i c }

/-- `Flush()` appends a copy of the whole LED buffer to the flush log (44_led_mapper.md R161). -/
def State.flush (s : State) : State := { s with flushes := s.flushes ++ [s.led] }

/-- The operation returns its class (43_decoder.md R130). -/
def State.withReport (s : State) (r : DecodeResult) : State := { s with report := some r }

/-- The encoder returns its packet (42_encoder.md R125): an output, and no state of R37. -/
def State.withEncoded (s : State) (p : Packet) : State := { s with encoded := some p }

/-- A fresh `ANY_RGB` (R162), and the state in which that draw has been made. -/
def State.drawRgb (s : State) : Rgb × State :=
  (Config.anyRgb s.draws, { s with draws := s.draws + 1 })

/-- Encode, then `Send`, as a control's step does: the encoder's refusal, or the state with its packet
sent. -/
def State.emit (s : State) (e : Except Refusal Packet) : Result :=
  match e with
  | .ok p => .next (s.send p)
  | .error r => .refused r

/-- The encoder alone: its refusal, or the state with its packet as output. `Send` is the caller's
(42_encoder.md R120, "State written: none. The caller's Send writes tx"). -/
def State.returnEncoded (s : State) (e : Except Refusal Packet) : Result :=
  match e with
  | .ok p => .next (s.withEncoded p)
  | .error r => .refused r

/-- `RESET` (R190): every piece of the block's state takes its reset value. The configuration stays
(R191), what the environment still asks for stays, and draws already made are not made again. -/
def State.applyReset (s : State) : State :=
  { s with
    upperLast := s.cfg.resetUpperLast
    lowerLast := s.cfg.resetLowerLast
    sliderLast := s.cfg.resetSliderLast
    knobLast := s.cfg.resetKnobLast
    led := s.cfg.ledInit
    tx := []
    flushes := []
    report := none
    encoded := none }

/-- The refusal of a configuration outside the contract (R171). -/
def configRefusal (c : Config) : Option Refusal :=
  if c.R < 7 then some .configR
  else if c.idsInRange = false then some .configId
  else if c.nled < 5 then some .configNled
  else none

/-- What the block does next. -/
inductive Action
  /-- Nothing has been asked for: it stays between two operations (R20). -/
  | idle
  /-- `RESET`. -/
  | reset
  /-- A row of the opcode table. -/
  | run (i : Instr)
  /-- The operation asked for is outside the contract. -/
  | refuse (r : Refusal)
  deriving DecidableEq, Repr

/-- The action a request asks for: the bytes of a `wire` request go through the decoder. -/
def Request.action : Request → Action
  | .reset => .reset
  | .tick inp => .run (.tick inp)
  | .rx p => .run (.rxPoll p)
  | .wire d bytes =>
    match decode d bytes with
    | .ok i => .run i
    | .error e => .refuse (.undecodable e)

/-- The oldest request's action and the state in which that request has been taken. A configuration
outside the contract refuses every operation. -/
def fetch (s : State) : Action × State :=
  match s.pending with
  | [] => (.idle, s)
  | q :: rest =>
    match configRefusal s.cfg with
    | some r => (.refuse r, s)
    | none => (q.action, { s with pending := rest })

end Sys2Proof.Machine
end

