-- ==== Sys2Proof/Machine/LedMapper.lean ====
section
/-! DEFINITION. The LED Feedback Mapper (spec/44_led_mapper.md). -/

namespace Sys2Proof.Machine

open Sys2Proof

/-- `UPPER_ID[i] == data1` (R160). -/
def ledMatches (c : Config) (data1 : Byte) (i : Fin 5) : Bool := c.upperId.get i == data1.toNat

/-- `GREEN(x)` (R160): twice a 7-bit value, and a fresh `ANY_RGB` for 128 and above (R162). -/
def green (x : Byte) (s : State) : Rgb × State :=
  if x.toNat ≤ 127 then (⟨0, BitVec.ofNat 8 (2 * x.toNat), 0⟩, s) else s.drawRgb

/-- One iteration of the scan: the entry of a matching button is written. -/
def ledVisit (data1 data2 : Byte) (s : State) (i : Fin 5) : State :=
  if ledMatches s.cfg data1 i then
    let (c, t) := green data2 s
    t.setPixel i.val c
  else s

/-- The linear scan of the upper-button table, index 0 first (R160). -/
def ledScan (data1 data2 : Byte) (s : State) : State :=
  [0, 1, 2, 3, 4].foldl (ledVisit data1 data2) s

/-- Some entry of the upper-button table equals `data1`. -/
def ledAnyMatch (c : Config) (data1 : Byte) : Bool := [0, 1, 2, 3, 4].any (ledMatches c data1)

/-- `LED_MAP(v)` (R160): the scan, then one flush if an entry matched (R161). -/
def ledMap (v : Voice3) (s : State) : State :=
  let t := ledScan v.data1 v.data2 s
  if ledAnyMatch s.cfg v.data1 then t.flush else t

end Sys2Proof.Machine
end

