-- ==== Sys2Proof/Machine/Decoder.lean ====
section
/-! DEFINITION. The MIDI Codec decoder (spec/43_decoder.md): `DECODE` (R130), the semantic view
`TO_EVENT` (R151), and the meanings of the table's `rx-packet` rows and of `RX_POLL`. -/

namespace Sys2Proof.Machine

open Sys2Proof

/-- `Voice3` of a body under a CIN, with `chan = status & 0x0F` (R130). -/
def voice3Of (cin : Nibble) (b : RxBody) : Voice3 where
  cin := cin
  cable := b.cable
  status := b.status
  chan := loNibble b.status
  data1 := b.data1
  data2 := b.data2

/-- `DECODE` (R130): the dispatch on the header alone, on the numbers of its pseudocode. -/
def decodeResult : Option Packet → DecodeResult
  | none => .empty
  | some p =>
    if p.header.toNat = 0 then .empty
    else
      let cin := p.header.toNat % 16
      if cin = 0x0 ∨ cin = 0x1 then .ignored .reserved (loNibble p.header)
      else if cin = 0x2 ∨ cin = 0xC ∨ cin = 0xD then .ignored .twoByte (loNibble p.header)
      else if cin = 0x4 ∨ cin = 0x5 ∨ cin = 0x6 ∨ cin = 0x7 then .ignored .sysEx (loNibble p.header)
      else if cin = 0xF then .ignored .singleByte 0xF#4
      else .voice3 (voice3Of (loNibble p.header) p.body)

/-- `TO_EVENT` (R151): the kind is taken from the CIN, not from the status byte. -/
def toEvent (v : Voice3) : Option MidiEvent :=
  if 127 < v.data1.toNat ∨ 127 < v.data2.toNat then none
  else if v.cin = 0x9#4 then some (.noteOn v.chan.toNat v.data1.toNat v.data2.toNat)
  else if v.cin = 0x8#4 then some (.noteOff v.chan.toNat v.data1.toNat v.data2.toNat)
  else if v.cin = 0xB#4 then some (.controlChange v.chan.toNat v.data1.toNat v.data2.toNat)
  else none

/-- `TO_EVENT` of a decode result: only a `Voice3` has a `MidiEvent` view. -/
def DecodeResult.toEvent : DecodeResult → Option MidiEvent
  | .empty => none
  | .ignored _ _ => none
  | .voice3 v => Machine.toEvent v

/-- What an `RX` does with its class: `LED_MAP` for a `Voice3`, nothing for any other; the class is
reported (R130). -/
def rxResult (r : DecodeResult) (s : State) : State :=
  match r with
  | .empty => s.withReport r
  | .ignored _ _ => s.withReport r
  | .voice3 v => (ledMap v s).withReport r

/-- `RX_EMPTY` (R132). -/
def execRxEmpty (_status _data1 _data2 : Byte) (s : State) : Result :=
  .next (rxResult .empty s)

/-- `RX_CIN0` (R133). -/
def execRxCin0 (_b : RxBody) (s : State) : Result :=
  .next (rxResult (.ignored .reserved 0x0#4) s)

/-- `RX_CIN1` (R134). -/
def execRxCin1 (_b : RxBody) (s : State) : Result :=
  .next (rxResult (.ignored .reserved 0x1#4) s)

/-- `RX_CIN2` (R135). -/
def execRxCin2 (_b : RxBody) (s : State) : Result :=
  .next (rxResult (.ignored .twoByte 0x2#4) s)

/-- `RX_CIN3` (R136). -/
def execRxCin3 (b : RxBody) (s : State) : Result :=
  .next (rxResult (.voice3 (voice3Of 0x3#4 b)) s)

/-- `RX_CIN4` (R137). -/
def execRxCin4 (_b : RxBody) (s : State) : Result :=
  .next (rxResult (.ignored .sysEx 0x4#4) s)

/-- `RX_CIN5` (R138). -/
def execRxCin5 (_b : RxBody) (s : State) : Result :=
  .next (rxResult (.ignored .sysEx 0x5#4) s)

/-- `RX_CIN6` (R139). -/
def execRxCin6 (_b : RxBody) (s : State) : Result :=
  .next (rxResult (.ignored .sysEx 0x6#4) s)

/-- `RX_CIN7` (R140). -/
def execRxCin7 (_b : RxBody) (s : State) : Result :=
  .next (rxResult (.ignored .sysEx 0x7#4) s)

/-- `RX_CIN8` (R141). -/
def execRxCin8 (b : RxBody) (s : State) : Result :=
  .next (rxResult (.voice3 (voice3Of 0x8#4 b)) s)

/-- `RX_CIN9` (R142). -/
def execRxCin9 (b : RxBody) (s : State) : Result :=
  .next (rxResult (.voice3 (voice3Of 0x9#4 b)) s)

/-- `RX_CINA` (R143). -/
def execRxCinA (b : RxBody) (s : State) : Result :=
  .next (rxResult (.voice3 (voice3Of 0xA#4 b)) s)

/-- `RX_CINB` (R144). -/
def execRxCinB (b : RxBody) (s : State) : Result :=
  .next (rxResult (.voice3 (voice3Of 0xB#4 b)) s)

/-- `RX_CINC` (R145). -/
def execRxCinC (_b : RxBody) (s : State) : Result :=
  .next (rxResult (.ignored .twoByte 0xC#4) s)

/-- `RX_CIND` (R146). -/
def execRxCinD (_b : RxBody) (s : State) : Result :=
  .next (rxResult (.ignored .twoByte 0xD#4) s)

/-- `RX_CINE` (R147). -/
def execRxCinE (b : RxBody) (s : State) : Result :=
  .next (rxResult (.voice3 (voice3Of 0xE#4 b)) s)

/-- `RX_CINF` (R148). -/
def execRxCinF (_b : RxBody) (s : State) : Result :=
  .next (rxResult (.ignored .singleByte 0xF#4) s)

/-- `RX_POLL` (R130). -/
def execRxPoll (p : Option Packet) (s : State) : Result := .next (rxResult (decodeResult p) s)

end Sys2Proof.Machine
end

