-- ==== Sys2Proof/Machine/Encoder.lean ====
section
/-! DEFINITION. The MIDI Codec encoder (spec/42_encoder.md) and the meanings of the table's three
`tx-packet` rows, which run the encoder alone: they write no state and give the packet as their output
(R120 to R122, R125; log entry 7). Only a control's step of `TICK` hands a packet to `Send`
(spec/10_state.md R30). -/

namespace Sys2Proof.Machine

open Sys2Proof

/-- `ENC_NOTE_ON(ch, pitch, vel)` (R120). -/
def encNoteOn (ch pitch vel : Nat) : Except Refusal Packet :=
  if inEncodeDomain ch pitch vel then .ok (noteOnPacket ch pitch vel) else .error .encodeOutOfDomain

/-- `ENC_NOTE_OFF(ch, pitch, vel)` (R121). -/
def encNoteOff (ch pitch vel : Nat) : Except Refusal Packet :=
  if inEncodeDomain ch pitch vel then .ok (noteOffPacket ch pitch vel) else .error .encodeOutOfDomain

/-- `ENC_CC(ch, ctrl, val)` (R122). -/
def encCc (ch ctrl val : Nat) : Except Refusal Packet :=
  if inEncodeDomain ch ctrl val then .ok (ccPacket ch ctrl val) else .error .encodeOutOfDomain

/-- The encoder of an event (R66). -/
def encEvent : MidiEvent → Except Refusal Packet
  | .noteOn ch pitch vel => encNoteOn ch pitch vel
  | .noteOff ch pitch vel => encNoteOff ch pitch vel
  | .controlChange ch ctrl val => encCc ch ctrl val

/-- `TX_NOTE_ON`. -/
def execTxNoteOn (ch pitch vel : Nat) (s : State) : Result := s.returnEncoded (encNoteOn ch pitch vel)

/-- `TX_NOTE_OFF`. -/
def execTxNoteOff (ch pitch vel : Nat) (s : State) : Result := s.returnEncoded (encNoteOff ch pitch vel)

/-- `TX_CC`. -/
def execTxCc (ch ctrl val : Nat) (s : State) : Result := s.returnEncoded (encCc ch ctrl val)

end Sys2Proof.Machine
end

