-- ==== Sys2Proof/Machine/Flags.lean ====
section
/-! DEFINITION. The block has no status flags (spec/10_state.md R32). The two decisions it computes and
uses within one control's step stand here: a button's change (spec/41_tracker.md R102) and an analog
control's significant change (spec/40_quantizer.md R91). -/

namespace Sys2Proof.Machine

open Sys2Proof

/-- A button's reading differs from its `last` bit (R102). -/
def buttonChanged (b last : Bit) : Bool := b != last

/-- `IS_SIGNIFICANT(current, last) = abs(current - last) > CF`, the difference taken as an unbounded
integer (R91). -/
def isSignificant (c : Config) (current last : Nat) : Bool :=
  c.cf < ((current : Int) - (last : Int)).natAbs

end Sys2Proof.Machine
end

