-- ==== Sys2Proof/Machine/Quantizer.lean ====
section
/-! DEFINITION. The Quantizer (spec/40_quantizer.md): the conversion of R90 and the controller values
made from it. The significance test of R91 stands in Machine/Flags.lean. -/

namespace Sys2Proof.Machine

open Sys2Proof

/-- `TO_SEVEN_BIT(s) = s / CF`, truncating (R90). -/
def toSevenBit (c : Config) (s : Nat) : Nat := s / c.cf

/-- A slider's controller value, inverted: `127 - TO_SEVEN_BIT(s)` (41_tracker.md R103). -/
def sliderValue (c : Config) (s : Nat) : Nat := 127 - toSevenBit c s

/-- A knob's controller value, not inverted (R104). -/
def knobValue (c : Config) (s : Nat) : Nat := toSevenBit c s

end Sys2Proof.Machine
end

