-- ==== Sys2Proof/Machine/Tracker.lean ====
section
/-! DEFINITION. The Input State Tracker (spec/41_tracker.md): the visiting order, the step of each kind
of control, and the meaning of `TICK`. -/

namespace Sys2Proof.Machine

open Sys2Proof

/-- One of the 19 tracked controls (R100). -/
inductive Control
  | upper (i : Fin 5)
  | lower (i : Fin 5)
  | slider (i : Fin 5)
  | knob (i : Fin 4)
  deriving DecidableEq, Repr

/-- `VISIT_ORDER(SCAN_ORDER)` (R101). -/
def visitOrder : ScanOrder → List Control
  | .grouped =>
    [.upper 0, .lower 0, .upper 1, .lower 1, .upper 2, .lower 2, .upper 3, .lower 3, .upper 4, .lower 4,
     .slider 0, .slider 1, .slider 2, .slider 3, .slider 4,
     .knob 0, .knob 1, .knob 2, .knob 3]
  | .interleaved =>
    [.upper 0, .lower 0, .slider 0, .upper 1, .lower 1, .slider 1, .upper 2, .lower 2, .slider 2,
     .upper 3, .lower 3, .slider 3, .upper 4, .lower 4, .slider 4,
     .knob 0, .knob 1, .knob 2, .knob 3]

/-- The packet of a changed button: reading 0 is pressed, a Note On; reading 1 is released, a Note Off
(R102). -/
def encButton (id : Nat) (b : Bit) : Except Refusal Packet :=
  if b = 0#1 then encNoteOn Config.ch id Config.velOn else encNoteOff Config.ch id Config.velOff

/-- `BUTTON_STEP(row, i, b)` (R102). -/
def buttonStep (row : Row) (i : Fin 5) (b : Bit) (s : State) : Result :=
  if buttonChanged b ((s.buttonLast row).get i) then
    andThen (s.emit (encButton ((buttonIds s.cfg row).get i) b)) fun t =>
      .next (t.setButtonLast row i b)
  else .next s

/-- `SLIDER_STEP(i, v)` (R103). -/
def sliderStep (i : Fin 5) (v : Nat) (s : State) : Result :=
  if isSignificant s.cfg v (s.sliderLast.get i) then
    andThen (s.emit (encCc Config.ch (i.val + 1) (sliderValue s.cfg v))) fun t =>
      .next (t.setSliderLast i v)
  else .next s

/-- `KNOB_STEP(i, v)` (R104). -/
def knobStep (i : Fin 4) (v : Nat) (s : State) : Result :=
  if isSignificant s.cfg v (s.knobLast.get i) then
    andThen (s.emit (encCc Config.ch (i.val + 6) (knobValue s.cfg v))) fun t =>
      .next (t.setKnobLast i v)
  else .next s

/-- The step of one control on its own reading (R100). -/
def controlStep (inp : Snapshot) (s : State) : Control → Result
  | .upper i => buttonStep .upper i (inp.upper.get i) s
  | .lower i => buttonStep .lower i (inp.lower.get i) s
  | .slider i => sliderStep i (inp.sliderSample i) s
  | .knob i => knobStep i (inp.knobSample i) s

/-- The steps of the controls of a list, in its order. -/
def controlSteps (inp : Snapshot) : List Control → State → Result
  | [], s => .next s
  | k :: ks, s => andThen (controlStep inp s k) (controlSteps inp ks)

/-- `TICK(In)` (R100): the range check comes before any step (60_exceptions.md R173). -/
def execTick (inp : Snapshot) (s : State) : Result :=
  if inp.inRange s.cfg then controlSteps inp (visitOrder s.cfg.scanOrder) s
  else .refused .analogOutOfRange

end Sys2Proof.Machine
end

