-- ==== Sys2Proof/Machine/Dispatch.lean ====
section
/-! DEFINITION. One arm per row of spec/opcode_table.json. -/

namespace Sys2Proof.Machine

open Sys2Proof

def exec (i : Instr) (s : State) : Host.Outcome State Fault Refusal :=
  match i with
  | .txNoteOn ch pitch vel => Sys2Proof.Machine.execTxNoteOn ch pitch vel s
  | .txNoteOff ch pitch vel => Sys2Proof.Machine.execTxNoteOff ch pitch vel s
  | .txCc ch ctrl val => Sys2Proof.Machine.execTxCc ch ctrl val s
  | .rxEmpty st d1 d2 => Sys2Proof.Machine.execRxEmpty st d1 d2 s
  | .rxCin0 b => Sys2Proof.Machine.execRxCin0 b s
  | .rxCin1 b => Sys2Proof.Machine.execRxCin1 b s
  | .rxCin2 b => Sys2Proof.Machine.execRxCin2 b s
  | .rxCin3 b => Sys2Proof.Machine.execRxCin3 b s
  | .rxCin4 b => Sys2Proof.Machine.execRxCin4 b s
  | .rxCin5 b => Sys2Proof.Machine.execRxCin5 b s
  | .rxCin6 b => Sys2Proof.Machine.execRxCin6 b s
  | .rxCin7 b => Sys2Proof.Machine.execRxCin7 b s
  | .rxCin8 b => Sys2Proof.Machine.execRxCin8 b s
  | .rxCin9 b => Sys2Proof.Machine.execRxCin9 b s
  | .rxCinA b => Sys2Proof.Machine.execRxCinA b s
  | .rxCinB b => Sys2Proof.Machine.execRxCinB b s
  | .rxCinC b => Sys2Proof.Machine.execRxCinC b s
  | .rxCinD b => Sys2Proof.Machine.execRxCinD b s
  | .rxCinE b => Sys2Proof.Machine.execRxCinE b s
  | .rxCinF b => Sys2Proof.Machine.execRxCinF b s
  | .tick inp => Sys2Proof.Machine.execTick inp s
  | .rxPoll p => Sys2Proof.Machine.execRxPoll p s

end Sys2Proof.Machine
end

