-- ==== Sys2Proof/Machine/Step.lean ====
section
/-! DEFINITION. One step: the environment's oldest request is taken and run to completion
(spec/10_state.md R20, spec/20_memory.md R55). -/

namespace Sys2Proof.Machine

open Sys2Proof

/-- One operation of the block. With nothing asked for, the block stays as it is. -/
def step (s : State) : Host.Outcome State Fault Refusal :=
  match fetch s with
  | (.idle, t) => .next t
  | (.reset, t) => .next t.applyReset
  | (.run i, t) => exec i t
  | (.refuse r, _) => .refused r

/-- The state in which the opcode-table word is the next thing the block is asked to run. -/
def State.withFetchWord (s : State) (nbits w : Nat) : State :=
  { s with
    pending := .wire (tableDirection (tableBytes nbits w)) (tableBytes nbits w) :: s.pending }

end Sys2Proof.Machine
end

