-- ==== Sys2Proof/Safety.lean ====
section
/-! DEFINITION. What claims call a good state and a request within the contract: the invariants of
spec/10_state.md R37, the packet laws of spec/30_encoding.md R67, and the LED laws of
spec/44_led_mapper.md R165 and spec/70_reset_and_hazards.md R196. -/

namespace Sys2Proof.Machine

open Sys2Proof

/-- A packet the encoder may produce: cable 0, the CIN equal to the message kind and one of the three
of the encode table, and 7-bit data (30_encoding.md R66, R67). -/
def sentPacketOk (p : Packet) : Bool :=
  p.cable == 0 && p.cin == p.kind && (p.cin == 0x9 || p.cin == 0x8 || p.cin == 0xB) &&
    p.data1.toNat ≤ 127 && p.data2.toNat ≤ 127

/-- The invariants every operation keeps, from any state that has them. -/
structure State.Inv (s : State) : Prop where
  /-- The configuration is within its contract (R6, R10, R11, R41). -/
  cfg_wf : s.cfg.wf = true
  /-- R37: `sliderLast[i]` in [0, 2^R - 1]. -/
  slider_range : ∀ i, s.sliderLast.get i < 2 ^ s.cfg.R
  /-- R37: `knobLast[i]` in [0, 2^R - 1]. -/
  knob_range : ∀ i, s.knobLast.get i < 2 ^ s.cfg.R
  /-- R26: the LED buffer has `NLED` entries. -/
  led_length : s.led.length = s.cfg.nled
  /-- R31: every flush-log entry is a copy of the whole buffer. -/
  flush_length : ∀ f ∈ s.flushes, f.length = s.cfg.nled
  /-- R67: the header invariant of every transmitted packet. -/
  tx_ok : ∀ p ∈ s.tx, sentPacketOk p = true

/-- What the LED driver was last handed: the newest flush, or the reset buffer before any. -/
def State.lastHanded (s : State) : List Rgb := s.flushes.getLast?.getD s.cfg.ledInit

/-- The LED laws that every operation keeps: the buffer never differs from what the driver was last
handed (R196), and entries 5 and above still hold their reset value (R42, R165 (a)). -/
structure State.LedInv (s : State) : Prop where
  handed : s.led = s.lastHanded
  upper_entries : ∀ i, 5 ≤ i → s.led[i]? = s.cfg.ledInit[i]?

/-- The environment's interactions under a configuration (00_scope.md R3, 60_exceptions.md R181): a tick
with readings in range, any `RX`, and `RESET`. A `wire` request is none of them (log entries 4 and 7). -/
def Request.inContract (c : Config) : Request → Bool
  | .reset => true
  | .tick inp => inp.inRange c
  | .rx _ => true
  | .wire _ _ => false

/-! ### A tick in closed form, for claims to compare `TICK` with -/

/-- The packets of a button's step: pressed (0) is a Note On with velocity 127, released (1) a Note Off
with velocity 0, no change is nothing (41_tracker.md R102). -/
def buttonPackets (id : Nat) (b last : Bit) : List Packet :=
  if b = last then []
  else if b = 0#1 then [⟨0x09#8, 0x90#8, BitVec.ofNat 8 id, 0x7F#8⟩]
  else [⟨0x08#8, 0x80#8, BitVec.ofNat 8 id, 0x00#8⟩]

/-- The reading is more than `CF` away from the stored baseline, on either side (40_quantizer.md R91). -/
def movedBeyond (c : Config) (v last : Nat) : Bool := last + c.cf < v || v + c.cf < last

/-- The packets of slider `i`'s step (41_tracker.md R103). -/
def sliderPackets (c : Config) (i v last : Nat) : List Packet :=
  if movedBeyond c v last then
    [⟨0x0B#8, 0xB0#8, BitVec.ofNat 8 (i + 1), BitVec.ofNat 8 (127 - v / c.cf)⟩]
  else []

/-- The packets of knob `i`'s step (R104). -/
def knobPackets (c : Config) (i v last : Nat) : List Packet :=
  if movedBeyond c v last then
    [⟨0x0B#8, 0xB0#8, BitVec.ofNat 8 (i + 6), BitVec.ofNat 8 (v / c.cf)⟩]
  else []

/-- The packets one control emits when its reading meets its own `last` register in `s`. -/
def controlPackets (inp : Snapshot) (s : State) : Control → List Packet
  | .upper i => buttonPackets (s.cfg.upperId.get i) (inp.upper.get i) (s.upperLast.get i)
  | .lower i => buttonPackets (s.cfg.lowerId.get i) (inp.lower.get i) (s.lowerLast.get i)
  | .slider i => sliderPackets s.cfg i.val (inp.slider.get i).toNat (s.sliderLast.get i)
  | .knob i => knobPackets s.cfg i.val (inp.knob.get i).toNat (s.knobLast.get i)

/-- The baseline after a reading: the reading if it moved beyond `CF`, else the old one (R103, R104). -/
def newBaseline (c : Config) (v last : Nat) : Nat := if movedBeyond c v last then v else last

/-- The order in which a tick visits the controls, by index: buttons in pairs, then sliders (after all
buttons, or each after its button pair), then knobs (41_tracker.md R101). -/
def scanSequence : ScanOrder → List Control
  | .grouped =>
    (List.finRange 5).flatMap (fun i => [.upper i, .lower i]) ++
      (List.finRange 5).map .slider ++ (List.finRange 4).map .knob
  | .interleaved =>
    (List.finRange 5).flatMap (fun i => [.upper i, .lower i, .slider i]) ++
      (List.finRange 4).map .knob

/-- The state after a tick: every button bit is the one read, every analog baseline moves only past
the threshold, and the packets of the controls follow in visiting order (R100 to R104). -/
def State.afterTick (s : State) (inp : Snapshot) : State :=
  { s with
    upperLast := inp.upper
    lowerLast := inp.lower
    sliderLast := .ofFn fun i => newBaseline s.cfg (inp.slider.get i).toNat (s.sliderLast.get i)
    knobLast := .ofFn fun i => newBaseline s.cfg (inp.knob.get i).toNat (s.knobLast.get i)
    tx := s.tx ++ (scanSequence s.cfg.scanOrder).flatMap (controlPackets inp s) }

end Sys2Proof.Machine
end

