-- ==== Sys2Proof/Certificates/Slice0/Obligations.lean ====
section
/-! DEFINITION. The statements for the provers. Each docstring names the rule of spec/ it formalises, or
says that it rests on an inference of the spec or on a choice of the model. -/

open Sys2Proof Sys2Proof.Machine

/-! ### Vocabulary of the statements -/

namespace Sys2Proof.Claims

/-- The six rows of the 3-byte category, by CIN (43_decoder.md R136, R141 to R144, R147). -/
inductive VoiceRow : Nibble → RxBody → Instr → Prop
  | cin3 (b : RxBody) : VoiceRow 0x3#4 b (.rxCin3 b)
  | cin8 (b : RxBody) : VoiceRow 0x8#4 b (.rxCin8 b)
  | cin9 (b : RxBody) : VoiceRow 0x9#4 b (.rxCin9 b)
  | cinA (b : RxBody) : VoiceRow 0xA#4 b (.rxCinA b)
  | cinB (b : RxBody) : VoiceRow 0xB#4 b (.rxCinB b)
  | cinE (b : RxBody) : VoiceRow 0xE#4 b (.rxCinE b)

/-- A row that runs as an `RX`: any `rx-packet` row, or `RX_POLL`. -/
inductive IsRx : Instr → Prop
  | empty (st d1 d2 : Byte) : IsRx (.rxEmpty st d1 d2)
  | cin0 (b : RxBody) : IsRx (.rxCin0 b)
  | cin1 (b : RxBody) : IsRx (.rxCin1 b)
  | cin2 (b : RxBody) : IsRx (.rxCin2 b)
  | cin3 (b : RxBody) : IsRx (.rxCin3 b)
  | cin4 (b : RxBody) : IsRx (.rxCin4 b)
  | cin5 (b : RxBody) : IsRx (.rxCin5 b)
  | cin6 (b : RxBody) : IsRx (.rxCin6 b)
  | cin7 (b : RxBody) : IsRx (.rxCin7 b)
  | cin8 (b : RxBody) : IsRx (.rxCin8 b)
  | cin9 (b : RxBody) : IsRx (.rxCin9 b)
  | cinA (b : RxBody) : IsRx (.rxCinA b)
  | cinB (b : RxBody) : IsRx (.rxCinB b)
  | cinC (b : RxBody) : IsRx (.rxCinC b)
  | cinD (b : RxBody) : IsRx (.rxCinD b)
  | cinE (b : RxBody) : IsRx (.rxCinE b)
  | cinF (b : RxBody) : IsRx (.rxCinF b)
  | poll (p : Option Packet) : IsRx (.rxPoll p)

/-- An `RX` of a 3-byte packet whose data2 is no 7-bit value (44_led_mapper.md R162). -/
def IsLargeVoice (i : Instr) : Prop :=
  ∃ cin b row, VoiceRow cin b row ∧ 127 < b.data2.toNat ∧
    (i = row ∨ i = .rxPoll (some (rxPacket cin b)))

/-- The `Voice3` of a body under a CIN (43_decoder.md R130). -/
def voice (cin : Nibble) (b : RxBody) : Voice3 :=
  ⟨cin, b.cable, b.status, loNibble b.status, b.data1, b.data2⟩

/-- The class table of 30_encoding.md R69. -/
def ClassOfHeader (p : Packet) (r : DecodeResult) : Prop :=
  (p.header = 0x00#8 → r = .empty) ∧
  (p.header ≠ 0x00#8 → p.cin = 0x0#4 ∨ p.cin = 0x1#4 → r = .ignored .reserved p.cin) ∧
  (p.cin = 0x2#4 ∨ p.cin = 0xC#4 ∨ p.cin = 0xD#4 → r = .ignored .twoByte p.cin) ∧
  (p.cin = 0x4#4 ∨ p.cin = 0x5#4 ∨ p.cin = 0x6#4 ∨ p.cin = 0x7#4 → r = .ignored .sysEx p.cin) ∧
  (p.cin = 0xF#4 → r = .ignored .singleByte p.cin) ∧
  (p.cin = 0x3#4 ∨ p.cin = 0x8#4 ∨ p.cin = 0x9#4 ∨ p.cin = 0xA#4 ∨ p.cin = 0xB#4 ∨ p.cin = 0xE#4 →
    r = .voice3 (voice p.cin p.body))

/-- Every piece of the block's state holds its reset value (70_reset_and_hazards.md R190). -/
def AtReset (c : Config) (t : State) : Prop :=
  t.upperLast = c.resetUpperLast ∧ t.lowerLast = c.resetLowerLast ∧
  t.sliderLast = c.resetSliderLast ∧ t.knobLast = c.resetKnobLast ∧
  t.led = c.ledInit ∧ t.tx = [] ∧ t.flushes = []

/-- The contract condition a request breaks under an admissible configuration, if it breaks one
(60_exceptions.md R171; bytes that are no packet: log entry 10). -/
def breach (c : Config) : Request → Option Refusal
  | .reset => none
  | .rx _ => none
  | .tick inp => if inp.inRange c then none else some .analogOutOfRange
  | .wire d bytes =>
    match decode d bytes with
    | .ok _ => none
    | .error e => some (.undecodable e)

/-- How many matching entries the scan has written before it reaches entry `j` (44_led_mapper.md
R160). -/
def matchesBefore (c : Config) (data1 : Byte) (j : Nat) : Nat :=
  ((List.finRange 5).filter fun i => i.val < j && c.upperId.get i == data1.toNat).length

/-- A snapshot that asks for nothing in a state: the stored button bits, and every analog reading
within `CF` of its baseline (41_tracker.md R106 (e)). -/
def Quiet (s : State) (inp : Snapshot) : Prop :=
  inp.inRange s.cfg = true ∧ inp.upper = s.upperLast ∧ inp.lower = s.lowerLast ∧
  (∀ i, |inp.slider.get i - s.sliderLast.get i| ≤ s.cfg.cf) ∧
  ∀ i, |inp.knob.get i - s.knobLast.get i| ≤ s.cfg.cf

/-- The state with other `last` registers. -/
def withLast (s : State) (u l : Five Bit) (sl : Five Nat) (kn : Four Nat) : State :=
  { s with upperLast := u, lowerLast := l, sliderLast := sl, knobLast := kn }

/-- The state under another `SCAN_ORDER`. -/
def withScanOrder (s : State) (o : ScanOrder) : State := { s with cfg := { s.cfg with scanOrder := o } }

end Sys2Proof.Claims

open Sys2Proof.Claims

/-! ### Reset -/

/-- R43, R191, with the assignments of 70_reset_and_hazards.md R190 to every register: `RESET` between two
operations, and the state at the start of the block's life, put every piece of the block's state at its
reset value with both logs empty; `RESET` leaves the configuration alone. -/
def Obligations.ResetPutsEveryRegisterAtItsResetValue : Prop :=
  (∀ s rest, s.cfg.admissible = true → s.pending = .reset :: rest →
    ∃ t, step s = .next t ∧ AtReset s.cfg t ∧ t.cfg = s.cfg) ∧
  ∀ c : Config, AtReset c (State.resetWith c)

/-- "The invariants hold after reset" (the spec's own inference in 10_state.md R37), under every
well-formed configuration; State.reset is the reset state of one, the model's choice (log entry 1). -/
def Obligations.ResetStateHasTheInvariants : Prop :=
  (∀ c : Config, c.wf = true → (State.resetWith c).Inv ∧ (State.resetWith c).LedInv) ∧
  State.reset = State.resetWith Config.reference ∧ Config.reference.wf = true

/-! ### Encoding -/

/-- A few words written out from the tables of 30_encoding.md R66 and R69 decode to the rows they stand
for (the direction of a bare table word: log entry 8), and three bytes are no packet (20_memory.md R54;
the name of that rejection: log entry 10). -/
def Obligations.SpecWordsDecodeToTheirRows : Prop :=
  decodeTableWord 32 0x09903C64 = some (.txNoteOn 0 60 100) ∧
  decodeTableWord 32 0x08830000 = some (.txNoteOff 3 0 0) ∧
  decodeTableWord 32 0x0BBF7F00 = some (.txCc 15 127 0) ∧
  decodeTableWord 32 0x00903C64 = some (.rxEmpty 0x90 0x3C 0x64) ∧
  decodeTableWord 32 0x10000000 = some (.rxCin0 ⟨1, 0, 0, 0⟩) ∧
  decodeTableWord 32 0x04F07E7F = some (.rxCin4 ⟨0, 0xF0, 0x7E, 0x7F⟩) ∧
  decodeTableWord 32 0x0FF80000 = some (.rxCinF ⟨0, 0xF8, 0, 0⟩) ∧
  decode .rx [0x19, 0x90, 0x3C, 0x64] = .ok (.rxCin9 ⟨1, 0x90, 0x3C, 0x64⟩) ∧
  decode .rx [0x09, 0x90, 0x3C] = .error (.notFourBytes 3)

/-- Decoding undoes encoding for every well-formed instruction that has a bit pattern; only `TICK` and
`RX_POLL` have none (30_encoding.md R81). -/
def Obligations.DecodeUndoesEncode : Prop :=
  ∀ (c : Config) (i : Instr), i.wellFormed c = true →
    (∃ d bs, encode i = some (d, bs) ∧ bs.length = 4 ∧ decode d bs = .ok i) ∨
    (∃ inp, i = .tick inp) ∨ ∃ p, i = .rxPoll p

/-- Encoding undoes decoding, so no bit of a packet is dropped, and the decoder gives only well-formed
instructions; every four bytes decode as received (30_encoding.md R75). -/
def Obligations.EncodeUndoesDecode : Prop :=
  (∀ d bs i, decode d bs = .ok i → encode i = some (d, bs) ∧ ∀ c : Config, i.wellFormed c = true) ∧
  ∀ h st d1 d2, ∃ i, decode .rx [h, st, d1, d2] = .ok i

/-! ### The encoder -/

/-- The TX rows run by themselves, the model's choice (log entry 7): in their domain they give exactly the
packet of the encode table as their output and write no state of the block, so `tx` is as it was
(42_encoder.md R120 to R122, "State written: none"); outside the domain they are refused. -/
def Obligations.TxRowsGiveTheEncodedPacket : Prop :=
  ∀ (s : State) (ch a b : Nat),
    (ch ≤ 15 → a ≤ 127 → b ≤ 127 →
      exec (.txNoteOn ch a b) s = .next { s with
        encoded := some ⟨0x09#8, 0x90#8 ||| BitVec.ofNat 8 ch, BitVec.ofNat 8 a, BitVec.ofNat 8 b⟩ } ∧
      exec (.txNoteOff ch a b) s = .next { s with
        encoded := some ⟨0x08#8, 0x80#8 ||| BitVec.ofNat 8 ch, BitVec.ofNat 8 a, BitVec.ofNat 8 b⟩ } ∧
      exec (.txCc ch a b) s = .next { s with
        encoded := some ⟨0x0B#8, 0xB0#8 ||| BitVec.ofNat 8 ch, BitVec.ofNat 8 a, BitVec.ofNat 8 b⟩ }) ∧
    (15 < ch ∨ 127 < a ∨ 127 < b →
      exec (.txNoteOn ch a b) s = .refused .encodeOutOfDomain ∧
      exec (.txNoteOff ch a b) s = .refused .encodeOutOfDomain ∧
      exec (.txCc ch a b) s = .refused .encodeOutOfDomain)

/-- R123, R67: the header's low nibble is the CIN of the message's category and equals the status byte's
high nibble, and the cable is 0; and so for every packet any instruction adds to the transmit stream. -/
def Obligations.EncodedHeaderIsItsCategory : Prop :=
  (∀ e p, encEvent e = .ok p →
    p.cable = 0x0#4 ∧ p.cin = p.kind ∧
    match e with
    | .noteOn _ _ _ => p.header &&& 0x0F#8 = 0x09#8
    | .noteOff _ _ _ => p.header &&& 0x0F#8 = 0x08#8
    | .controlChange _ _ _ => p.header &&& 0x0F#8 = 0x0B#8) ∧
  ∀ i s t, exec i s = .next t →
    ∃ l, t.tx = s.tx ++ l ∧ ∀ p ∈ l, p.cable = 0x0#4 ∧ p.cin = p.kind ∧
      (p.cin = 0x9#4 ∨ p.cin = 0x8#4 ∨ p.cin = 0xB#4)

/-- "Distinct events give distinct packets" (the spec's own inference in 42_encoder.md R124). -/
def Obligations.EncodersAreJointlyInjective : Prop :=
  ∀ e e' p, encEvent e = .ok p → encEvent e' = .ok p → e = e'

/-- The round-trip law of 43_decoder.md R152, which the spec marks as derived: what the encoder gives
decodes to the event it was made from, and every event of the domain is encoded. -/
def Obligations.EncodedEventsDecodeBack : Prop :=
  ∀ ch a b, ch ≤ 15 → a ≤ 127 → b ≤ 127 →
    (∃ p, encEvent (.noteOn ch a b) = .ok p ∧
      (decodeResult (some p)).toEvent = some (.noteOn ch a b)) ∧
    (∃ p, encEvent (.noteOff ch a b) = .ok p ∧
      (decodeResult (some p)).toEvent = some (.noteOff ch a b)) ∧
    ∃ p, encEvent (.controlChange ch a b) = .ok p ∧
      (decodeResult (some p)).toEvent = some (.controlChange ch a b)

/-! ### The decoder -/

/-- R69, R70, R130: an `RX` of any packet completes, as `RX_POLL` and as the row it decodes to alike; it
reports the one class the header gives it; a `Voice3` goes through `LED_MAP` and any other class has no
effect. `NONE` is `Empty`. -/
def Obligations.RxClassifiesByHeader : Prop :=
  (∀ (p : Packet) (s : State), ∃ t r,
    exec (.rxPoll (some p)) s = .next t ∧ exec (decodeRx p) s = .next t ∧
    ClassOfHeader p r ∧ t.report = some r ∧
    (∀ v, r = .voice3 v → t = { ledMap v s with report := some r }) ∧
    ((∀ v, r ≠ .voice3 v) → t = { s with report := some r })) ∧
  ∀ s : State, exec (.rxPoll none) s = .next { s with report := some .empty }

/-- R132, R133, R134: the word patterns of `RX_EMPTY`, `RX_CIN0` and `RX_CIN1`, in that precedence, and
their rows, which only report their class. -/
def Obligations.EmptyAndReservedRowsHaveNoEffect : Prop :=
  ∀ (p : Packet) (st d1 d2 : Byte) (b : RxBody) (s : State),
    (p.toWord &&& 0xFF000000#32 = 0#32 → decodeRx p = .rxEmpty p.status p.data1 p.data2) ∧
    (p.toWord &&& 0x0F000000#32 = 0#32 → p.header ≠ 0x00#8 → decodeRx p = .rxCin0 p.body) ∧
    (p.toWord &&& 0x0F000000#32 = 0x01000000#32 → decodeRx p = .rxCin1 p.body) ∧
    exec (.rxEmpty st d1 d2) s = .next { s with report := some .empty } ∧
    exec (.rxPoll none) s = .next { s with report := some .empty } ∧
    exec (.rxCin0 b) s = .next { s with report := some (.ignored .reserved 0x0#4) } ∧
    exec (.rxCin1 b) s = .next { s with report := some (.ignored .reserved 0x1#4) }

/-- R135, R145, R146, R148: the word patterns of the 2-byte and single-byte rows, which only report their
class. -/
def Obligations.ShortMessageRowsHaveNoEffect : Prop :=
  ∀ (p : Packet) (b : RxBody) (s : State),
    (p.toWord &&& 0x0F000000#32 = 0x02000000#32 → decodeRx p = .rxCin2 p.body) ∧
    (p.toWord &&& 0x0F000000#32 = 0x0C000000#32 → decodeRx p = .rxCinC p.body) ∧
    (p.toWord &&& 0x0F000000#32 = 0x0D000000#32 → decodeRx p = .rxCinD p.body) ∧
    (p.toWord &&& 0x0F000000#32 = 0x0F000000#32 → decodeRx p = .rxCinF p.body) ∧
    exec (.rxCin2 b) s = .next { s with report := some (.ignored .twoByte 0x2#4) } ∧
    exec (.rxCinC b) s = .next { s with report := some (.ignored .twoByte 0xC#4) } ∧
    exec (.rxCinD b) s = .next { s with report := some (.ignored .twoByte 0xD#4) } ∧
    exec (.rxCinF b) s = .next { s with report := some (.ignored .singleByte 0xF#4) }

/-- R137, R138, R139, R140: the word patterns of the SysEx rows, which only report their class: nothing is
buffered. -/
def Obligations.SysExRowsHaveNoEffect : Prop :=
  ∀ (p : Packet) (b : RxBody) (s : State),
    (p.toWord &&& 0x0F000000#32 = 0x04000000#32 → decodeRx p = .rxCin4 p.body) ∧
    (p.toWord &&& 0x0F000000#32 = 0x05000000#32 → decodeRx p = .rxCin5 p.body) ∧
    (p.toWord &&& 0x0F000000#32 = 0x06000000#32 → decodeRx p = .rxCin6 p.body) ∧
    (p.toWord &&& 0x0F000000#32 = 0x07000000#32 → decodeRx p = .rxCin7 p.body) ∧
    exec (.rxCin4 b) s = .next { s with report := some (.ignored .sysEx 0x4#4) } ∧
    exec (.rxCin5 b) s = .next { s with report := some (.ignored .sysEx 0x5#4) } ∧
    exec (.rxCin6 b) s = .next { s with report := some (.ignored .sysEx 0x6#4) } ∧
    exec (.rxCin7 b) s = .next { s with report := some (.ignored .sysEx 0x7#4) }

/-- R136, R141, R142, R143, R144, R147: the word patterns of the six 3-byte rows; each runs `LED_MAP` on its
`Voice3` and reports it. R151: CIN 9, 8 and B have their `MidiEvent` view on 7-bit data; there is none when
data1 or data2 is above 127, whatever the CIN, and none under any other CIN, 3, A and E among them. -/
def Obligations.VoiceRowsRunTheLedMapper : Prop :=
  (∀ p : Packet,
    (p.toWord &&& 0x0F000000#32 = 0x03000000#32 → decodeRx p = .rxCin3 p.body) ∧
    (p.toWord &&& 0x0F000000#32 = 0x08000000#32 → decodeRx p = .rxCin8 p.body) ∧
    (p.toWord &&& 0x0F000000#32 = 0x09000000#32 → decodeRx p = .rxCin9 p.body) ∧
    (p.toWord &&& 0x0F000000#32 = 0x0A000000#32 → decodeRx p = .rxCinA p.body) ∧
    (p.toWord &&& 0x0F000000#32 = 0x0B000000#32 → decodeRx p = .rxCinB p.body) ∧
    (p.toWord &&& 0x0F000000#32 = 0x0E000000#32 → decodeRx p = .rxCinE p.body)) ∧
  (∀ cin b i s, VoiceRow cin b i →
    exec i s = .next { ledMap (voice cin b) s with report := some (.voice3 (voice cin b)) }) ∧
  (∀ b : RxBody, b.data1.toNat ≤ 127 → b.data2.toNat ≤ 127 →
    toEvent (voice 0x9#4 b) =
      some (.noteOn (loNibble b.status).toNat b.data1.toNat b.data2.toNat) ∧
    toEvent (voice 0x8#4 b) =
      some (.noteOff (loNibble b.status).toNat b.data1.toNat b.data2.toNat) ∧
    toEvent (voice 0xB#4 b) =
      some (.controlChange (loNibble b.status).toNat b.data1.toNat b.data2.toNat)) ∧
  (∀ cin (b : RxBody), 127 < b.data1.toNat ∨ 127 < b.data2.toNat → toEvent (voice cin b) = none) ∧
  (∀ cin (b : RxBody), cin ≠ 0x9#4 → cin ≠ 0x8#4 → cin ≠ 0xB#4 → toEvent (voice cin b) = none) ∧
  ∀ b : RxBody, toEvent (voice 0x3#4 b) = none ∧ toEvent (voice 0xA#4 b) = none ∧
    toEvent (voice 0xE#4 b) = none

/-- R72: packets that differ in the status byte alone fall in one class. The cable does not steer either
(30_encoding.md R71), except in which of the two classes without effect a CIN of 0 is reported (R70): one
CIN and one pair of data bytes have one effect. -/
def Obligations.StatusAndCableDoNotSteerTheEffect : Prop :=
  ∀ (p q : Packet) (s : State), p.cin = q.cin → p.data1 = q.data1 → p.data2 = q.data2 →
    ∃ t u, exec (decodeRx p) s = .next t ∧ exec (decodeRx q) s = .next u ∧
      { t with report := none } = { u with report := none } ∧
      (p.header = q.header ∨ (p.header ≠ 0x00#8 ∧ q.header ≠ 0x00#8) →
        (t.report = some .empty ↔ u.report = some .empty) ∧
        (∀ reason cin, t.report = some (.ignored reason cin) ↔ u.report = some (.ignored reason cin)) ∧
        ((∃ v, t.report = some (.voice3 v)) ↔ ∃ v, u.report = some (.voice3 v)))

/-- R149: the result of an `RX` depends only on its own packet and on the LED buffer: from two states
that agree on the configuration and on `led`, one `RX` reports the same class, leaves the same buffer and
asks for the same flush. Only for a 3-byte packet with data2 of 128 or more must the two states also agree
on which free value comes next (log entry 5). -/
def Obligations.RxDependsOnPacketAndLedsOnly : Prop :=
  ∀ i s s', IsRx i → s.cfg = s'.cfg → s.led = s'.led → (IsLargeVoice i → s.draws = s'.draws) →
    ∃ t t' fl, exec i s = .next t ∧ exec i s' = .next t' ∧ t.report = t'.report ∧ t.led = t'.led ∧
      t.flushes = s.flushes ++ fl ∧ t'.flushes = s'.flushes ++ fl

/-! ### The LED Feedback Mapper -/

/-- R160, R161: a 3-byte row writes every LED entry whose upper identifier equals data1, with green twice
the 7-bit value (any colour at 128 and above), leaves every other entry, and asks for one flush, of
the buffer it leaves, exactly if an entry matched. Everything else is unchanged but the class it reports
and the count of free values. -/
def Obligations.VoiceRowsWriteEveryMatchingLed : Prop :=
  ∀ cin b i s, VoiceRow cin b i → 5 ≤ s.led.length →
    ∃ t, exec i s = .next t ∧
      (∀ j : Fin 5, s.cfg.upperId.get j = b.data1.toNat →
        if b.data2.toNat ≤ 127 then
          t.led[j.val]? = some ⟨0#8, BitVec.ofNat 8 (2 * b.data2.toNat), 0#8⟩
        else ∃ c, t.led[j.val]? = some c) ∧
      (∀ k, (∀ j : Fin 5, j.val = k → s.cfg.upperId.get j ≠ b.data1.toNat) → t.led[k]? = s.led[k]?) ∧
      t.led.length = s.led.length ∧
      ((∃ j, s.cfg.upperId.get j = b.data1.toNat) → t.flushes = s.flushes ++ [t.led]) ∧
      ((∀ j, s.cfg.upperId.get j ≠ b.data1.toNat) → t.flushes = s.flushes) ∧
      t = { s with led := t.led, flushes := t.flushes, report := t.report, draws := t.draws }

/-- The form of the free value of 44_led_mapper.md R162 in this model (log entry 5): for data2 >= 128
each matching entry holds its own fresh draw, in scan order, and the count moves past them all; for
7-bit values nothing is drawn. -/
def Obligations.LargeValuesDrawAFreshColourForEachWrite : Prop :=
  ∀ cin b i s, VoiceRow cin b i → 5 ≤ s.led.length →
    ∃ t, exec i s = .next t ∧
      (127 < b.data2.toNat →
        (∀ j : Fin 5, s.cfg.upperId.get j = b.data1.toNat →
          t.led[j.val]? = some (Config.anyRgb (s.draws + matchesBefore s.cfg b.data1 j.val))) ∧
        t.draws = s.draws + matchesBefore s.cfg b.data1 5) ∧
      (b.data2.toNat ≤ 127 → t.draws = s.draws)

/-- R163: with no matching identifier the event is dropped: nothing changes but the class reported. -/
def Obligations.UnmatchedVoiceIsDropped : Prop :=
  ∀ cin b i s, VoiceRow cin b i → (∀ j, s.cfg.upperId.get j ≠ b.data1.toNat) →
    exec i s = .next { s with report := some (.voice3 (voice cin b)) }

/-- Only a 3-byte packet whose data1 is an upper identifier changes the LED buffer or asks for a flush,
and no instruction changes an entry above 4 (the spec's own inferences in 44_led_mapper.md R164 and
R165 (a)). -/
def Obligations.OnlyMatchingVoiceChangesLeds : Prop :=
  ∀ i s t, exec i s = .next t →
    (t.led ≠ s.led ∨ t.flushes ≠ s.flushes →
      ∃ cin b row, VoiceRow cin b row ∧ (i = row ∨ i = .rxPoll (some (rxPacket cin b))) ∧
        ∃ j, s.cfg.upperId.get j = b.data1.toNat) ∧
    ∀ k, 5 ≤ k → t.led[k]? = s.led[k]?

/-- For 7-bit values a repeated event leaves the buffer as the first left it, and a matching one adds a
second flush of that buffer (the spec's own inference in 44_led_mapper.md R165 (c)). -/
def Obligations.RepeatedVoiceLeavesTheLeds : Prop :=
  ∀ cin b i s t, VoiceRow cin b i → b.data2.toNat ≤ 127 → exec i s = .next t →
    ∃ u, exec i t = .next u ∧ u.led = t.led ∧
      ((∃ j, s.cfg.upperId.get j = b.data1.toNat) → u.flushes = s.flushes ++ [t.led, t.led])

/-! ### The Quantizer -/

/-- R7, R90: `CF` is `2^R / 128`, 32 for R = 12, it is the divisor of the conversion and the threshold of
the significance test. -/
def Obligations.ConversionFactorDividesAndThresholds : Prop :=
  ∀ c : Config, c.cf = 2 ^ c.R / 128 ∧ (c.R = 12 → c.cf = 32) ∧
    (∀ v, toSevenBit c v = v / (2 ^ c.R / 128)) ∧
    ∀ a b, isSignificant c a b = true ↔ 2 ^ c.R / 128 < a - b ∨ 2 ^ c.R / 128 < b - a

/-- R91, R93: significance is the strict test of the absolute difference against `CF`, symmetric, and
never of equal samples. -/
def Obligations.SignificanceIsAStrictDistance : Prop :=
  ∀ (c : Config) (a b : Nat),
    (isSignificant c a b = true ↔ (c.cf : Int) < |(a : Int) - b|) ∧
    isSignificant c a b = isSignificant c b a ∧ isSignificant c a a = false

/-- The range and monotonicity of the conversion and the slider's inversion (the spec's own inferences in
40_quantizer.md R90 and R92 and 41_tracker.md R108): the 7-bit value is the top seven bits of the
sample. -/
def Obligations.ConversionIsTheTopSevenBits : Prop :=
  ∀ c : Config, 7 ≤ c.R →
    (∀ v, toSevenBit c v = v >>> (c.R - 7)) ∧
    (∀ v, v < 2 ^ c.R → toSevenBit c v ≤ 127 ∧ sliderValue c v + knobValue c v = 127) ∧
    ∀ v w, v ≤ w →
      toSevenBit c v ≤ toSevenBit c w ∧ sliderValue c w ≤ sliderValue c v ∧ knobValue c v ≤ knobValue c w

/-- A significant change always changes the 7-bit value, and not conversely (the spec's own inference in
40_quantizer.md R94). -/
def Obligations.SignificantChangeMovesSevenBitValue : Prop :=
  (∀ (c : Config) (a b : Nat), 7 ≤ c.R → isSignificant c a b = true → toSevenBit c a ≠ toSevenBit c b) ∧
  ∀ c : Config, c.R = 12 → toSevenBit c 31 ≠ toSevenBit c 32 ∧ isSignificant c 31 32 = false

/-! ### The Input State Tracker -/

/-- R102: a button whose reading differs from its `last` bit sends one note whose pitch is the pin
identifier (pressed: Note On, velocity 127; released: Note Off, velocity 0) and stores the reading; one
that does not differ does nothing. -/
def Obligations.ButtonStepSendsOnChange : Prop :=
  ∀ (row : Row) (i : Fin 5) (b : Bit) (s : State), (buttonIds s.cfg row).get i ≤ 127 →
    (b = (s.buttonLast row).get i → buttonStep row i b s = .next s) ∧
    (b ≠ (s.buttonLast row).get i →
      ∃ t, buttonStep row i b s = .next t ∧
        t.tx = s.tx ++
          [if b = 0#1 then ⟨0x09#8, 0x90#8, BitVec.ofNat 8 ((buttonIds s.cfg row).get i), 0x7F#8⟩
           else ⟨0x08#8, 0x80#8, BitVec.ofNat 8 ((buttonIds s.cfg row).get i), 0x00#8⟩] ∧
        (∀ r j, (t.buttonLast r).get j = if r = row ∧ j = i then b else (s.buttonLast r).get j) ∧
        t = { s with tx := t.tx, upperLast := t.upperLast, lowerLast := t.lowerLast })

/-- R103, R104: a slider or knob sends one Control Change exactly when its sample is more than `CF` from
its baseline, the slider's value inverted and on controller i + 1, the knob's not and on i + 6, and
only then stores the sample. -/
def Obligations.AnalogStepsSendBeyondTheThreshold : Prop :=
  ∀ (s : State) (v : Nat), 7 ≤ s.cfg.R → v < 2 ^ s.cfg.R →
    (∀ i : Fin 5,
      ((s.cfg.cf : Int) < |(v : Int) - s.sliderLast.get i| →
        sliderStep i v s = .next { s with
          tx := s.tx ++ [⟨0x0B#8, 0xB0#8, BitVec.ofNat 8 (i.val + 1), BitVec.ofNat 8 (127 - v / s.cfg.cf)⟩]
          sliderLast := s.sliderLast.set i v }) ∧
      (|(v : Int) - s.sliderLast.get i| ≤ s.cfg.cf → sliderStep i v s = .next s)) ∧
    ∀ i : Fin 4,
      ((s.cfg.cf : Int) < |(v : Int) - s.knobLast.get i| →
        knobStep i v s = .next { s with
          tx := s.tx ++ [⟨0x0B#8, 0xB0#8, BitVec.ofNat 8 (i.val + 6), BitVec.ofNat 8 (v / s.cfg.cf)⟩]
          knobLast := s.knobLast.set i v }) ∧
      (|(v : Int) - s.knobLast.get i| ≤ s.cfg.cf → knobStep i v s = .next s)

/-- R100, R101, R102, R103, R104: under a configuration within the contract a tick whose readings are in
range completes, in the closed form of `State.afterTick`; one with a reading out of range is refused
(that a negative reading counts as out of range is the model's choice, log entry 12). -/
def Obligations.TickReachesItsClosedForm : Prop :=
  ∀ (s : State) (inp : Snapshot),
    (s.cfg.admissible = true → inp.inRange s.cfg = true →
      exec (.tick inp) s = .next (s.afterTick inp)) ∧
    (inp.inRange s.cfg = false → exec (.tick inp) s = .refused .analogOutOfRange)

/-- What a tick leaves alone, whatever the configuration: the LED buffer, the flush log, the class last
reported, the packet last given by an encode row, the free values, the configuration and what is asked for next; and each `last` register
holds its old value or the reading of its own control (41_tracker.md R100, and R106 (b), the spec's
own inference). -/
def Obligations.TickFrameIsItsOwnRegisters : Prop :=
  ∀ inp s t, exec (.tick inp) s = .next t →
    t.led = s.led ∧ t.flushes = s.flushes ∧ t.report = s.report ∧ t.encoded = s.encoded ∧
    t.draws = s.draws ∧ t.cfg = s.cfg ∧ t.pending = s.pending ∧ s.tx <+: t.tx ∧
    (∀ i, t.upperLast.get i = s.upperLast.get i ∨ t.upperLast.get i = inp.upper.get i) ∧
    (∀ i, t.lowerLast.get i = s.lowerLast.get i ∨ t.lowerLast.get i = inp.lower.get i) ∧
    (∀ i, t.sliderLast.get i = s.sliderLast.get i ∨ t.sliderLast.get i = inp.slider.get i) ∧
    ∀ i, t.knobLast.get i = s.knobLast.get i ∨ t.knobLast.get i = inp.knob.get i

/-- Under a configuration within the contract a tick is refused exactly when some analog reading is
outside [0, 2^R - 1], and for that reason (60_exceptions.md R171; a negative reading: log entry 12). -/
def Obligations.TickRefusedExactlyOutOfRange : Prop :=
  ∀ (s : State) (inp : Snapshot) (r : Refusal), s.cfg.admissible = true →
    (exec (.tick inp) s = .refused r ↔
      r = .analogOutOfRange ∧
        ((∃ i, inp.slider.get i < 0 ∨ 2 ^ s.cfg.R - 1 < inp.slider.get i) ∨
          ∃ i, inp.knob.get i < 0 ∨ 2 ^ s.cfg.R - 1 < inp.knob.get i))

/-- The state a tick reaches and the packets it sends do not depend on `SCAN_ORDER`; only the order of
those packets does (the spec's own inference in 41_tracker.md R106 (c), (d)). -/
def Obligations.ScanOrderOnlyReordersPackets : Prop :=
  ∀ (s : State) (inp : Snapshot) (o o' : ScanOrder), s.cfg.admissible = true →
    inp.inRange s.cfg = true →
    ∃ t t' l l', exec (.tick inp) (withScanOrder s o) = .next t ∧
      exec (.tick inp) (withScanOrder s o') = .next t' ∧
      t.tx = s.tx ++ l ∧ t'.tx = s.tx ++ l' ∧ l.Perm l' ∧
      { t with cfg := s.cfg, tx := [] } = { t' with cfg := s.cfg, tx := [] }

/-- A tick sends at most 19 packets, each on cable 0 and channel 0: a Note On of velocity 127 or a Note
Off of velocity 0 whose pitch is a button identifier, or a Control Change of controller 1 to 9 with a
7-bit value (the spec's own inferences in 30_encoding.md R68 and 41_tracker.md R106 (a)). -/
def Obligations.TickPacketsAreThoseOfTheTracker : Prop :=
  ∀ inp s t, s.cfg.admissible = true → exec (.tick inp) s = .next t →
    ∃ l, t.tx = s.tx ++ l ∧ l.length ≤ 19 ∧
      ∀ p ∈ l,
        ((p.header = 0x09#8 ∧ p.status = 0x90#8 ∧ p.data2 = 0x7F#8 ∨
            p.header = 0x08#8 ∧ p.status = 0x80#8 ∧ p.data2 = 0x00#8) ∧
          ∃ row i, p.data1.toNat = (buttonIds s.cfg row).get i) ∨
        (p.header = 0x0B#8 ∧ p.status = 0xB0#8 ∧ 1 ≤ p.data1.toNat ∧ p.data1.toNat ≤ 9 ∧
          p.data2.toNat ≤ 127)

/-- Any number of ticks, each within `CF` of the stored baselines and with the stored button bits, emit
nothing and change nothing, however far apart their readings are from one another (the spec's own
inference in 41_tracker.md R106 (e) and R107; the ticks asked for in a queue: log entry 3). -/
def Obligations.QuietTicksChangeNothing : Prop :=
  ∀ (inps : List Snapshot) (s : State) (rest : List Request), s.cfg.admissible = true →
    (∀ inp ∈ inps, Quiet s inp) → s.pending = inps.map .tick ++ rest →
    Host.Core.run Sys2Proof.core inps.length s = .next { s with pending := rest }

/-- After a tick, the same snapshot again emits nothing and changes nothing. -/
def Obligations.RepeatedTickIsSilent : Prop :=
  ∀ inp s t, s.cfg.admissible = true → exec (.tick inp) s = .next t → exec (.tick inp) t = .next t

/-- From the reset state of any configuration whose reset values are all 0, a first tick that reads every
button released and every analog control at 0 sends ten Note Offs in pair order, and nothing else,
under either `SCAN_ORDER` (the spec's own inference in 70_reset_and_hazards.md R192; 95_test_vectors.md
T-TRK-10). -/
def Obligations.FirstTickReleasesEveryButton : Prop :=
  ∀ c : Config, c.wf = true → c.resetUpperLast = .const 0#1 → c.resetLowerLast = .const 0#1 →
    c.resetSliderLast = .const 0 → c.resetKnobLast = .const 0 →
    ∃ t, exec (.tick ⟨.const 1#1, .const 1#1, .const 0, .const 0⟩) (State.resetWith c) = .next t ∧
      t.upperLast = .const 1#1 ∧ t.lowerLast = .const 1#1 ∧ t.sliderLast = .const 0 ∧
      t.knobLast = .const 0 ∧
      t.tx = (List.finRange 5).flatMap fun i =>
        [⟨0x08#8, 0x80#8, BitVec.ofNat 8 (c.upperId.get i), 0x00#8⟩,
         ⟨0x08#8, 0x80#8, BitVec.ofNat 8 (c.lowerId.get i), 0x00#8⟩]

/-! ### The whole machine -/

/-- R25: only `TICK` writes the `last` registers, and an `RX` never reads them: its outcome with other
registers is its outcome with those registers put in. -/
def Obligations.OnlyTickWritesLastRegisters : Prop :=
  (∀ i s t, exec i s = .next t → (∀ inp, i ≠ .tick inp) →
    t.upperLast = s.upperLast ∧ t.lowerLast = s.lowerLast ∧ t.sliderLast = s.sliderLast ∧
      t.knobLast = s.knobLast) ∧
  ∀ i s u l sl kn, IsRx i →
    ∃ t, exec i s = .next t ∧ exec i (withLast s u l sl kn) = .next (withLast t u l sl kn)

/-- R30, R31: both logs are append-only; `tx` is appended only by `TICK`, and `flushes` only by an `RX`, by a
copy of the whole buffer as it stands at that flush; and nothing an operation does depends on the packets
sent before it. -/
def Obligations.LogsOnlyGrow : Prop :=
  (∀ i s t, exec i s = .next t →
    s.tx <+: t.tx ∧ (t.flushes = s.flushes ∨ t.flushes = s.flushes ++ [t.led]) ∧
    ((∀ inp, i ≠ .tick inp) → t.tx = s.tx) ∧ (¬ IsRx i → t.flushes = s.flushes)) ∧
  ∀ i s t l, exec i s = .next t →
    exec i { s with tx := l ++ s.tx } = .next { t with tx := l ++ t.tx }

/-- R191: no step, `RESET` among them, changes the configuration. -/
def Obligations.ConfigurationNeverChanges : Prop :=
  ∀ s t, step s = .next t → t.cfg = s.cfg

/-- The step takes the environment's oldest request (log entries 3 and 4): the bytes of a packet run as
the instruction they decode to, a tick and an `RX` as their rows, in the state whose pending requests
are the rest; with nothing asked for, nothing changes. -/
def Obligations.StepRunsTheDecodedInstruction : Prop :=
  ∀ (s : State) (rest : List Request), s.cfg.admissible = true →
    (∀ d bs i, s.pending = .wire d bs :: rest → decode d bs = .ok i → i.wellFormed s.cfg = true →
      step s = exec i { s with pending := rest }) ∧
    (∀ inp, s.pending = .tick inp :: rest → step s = exec (.tick inp) { s with pending := rest }) ∧
    (∀ p, s.pending = .rx p :: rest → step s = exec (.rxPoll p) { s with pending := rest }) ∧
    (s.pending = [] → step s = .next s)

/-- "Every operation completes" (70_reset_and_hazards.md R200): under a configuration within the contract
each of the environment's three interactions, within its contract, is run to a next state, from which the
next request is taken; and so are the bytes of one row, which are no interaction of the environment but
the model's own way to run a row. The queue and those bytes are the model's choice (log entries 3, 4
and 7). -/
def Obligations.RequestsInContractComplete : Prop :=
  ∀ (s : State) (q : Request) (rest : List Request), s.cfg.admissible = true →
    (q.inContract s.cfg = true ∨ ∃ d bs i, q = .wire d bs ∧ decode d bs = .ok i) →
    s.pending = q :: rest → ∃ t, step s = .next t ∧ t.pending = rest

/-- A step is refused only for a reason of the contract that is really broken, and a broken configuration
refuses every operation (60_exceptions.md R171; which reason is named when several hold, and the
refusal of bytes that are no packet, are the model's choices, log entries 10 and 11). -/
def Obligations.RefusalsNameABrokenContract : Prop :=
  (∀ s r, step s = .refused r →
    ∃ q rest, s.pending = q :: rest ∧
      ((r = .configR ∧ s.cfg.R < 7) ∨
        (r = .configId ∧ ∃ row i, 127 < (buttonIds s.cfg row).get i) ∨
        (r = .configNled ∧ s.cfg.nled < 5) ∨
        (r = .analogOutOfRange ∧ ∃ inp, q = .tick inp ∧ inp.inRange s.cfg = false) ∨
        ∃ e d bs, r = .undecodable e ∧ q = .wire d bs ∧ decode d bs = .error e)) ∧
  ∀ s, s.pending ≠ [] → s.cfg.admissible = false → ∃ r, step s = .refused r

/-- The invariants of 10_state.md R37 and the packet law of 30_encoding.md R67 are kept by every step from
every state that has them (for R37 the spec's own inference). -/
def Obligations.StepKeepsTheInvariants : Prop :=
  ∀ s t, s.Inv → step s = .next t → t.Inv

/-- The LED laws are kept by every step: the buffer is always what the driver was last handed, and the
entries above 4 hold their reset value (the spec's own inferences in 70_reset_and_hazards.md R196 and
44_led_mapper.md R165 (a); 10_state.md R42). -/
def Obligations.StepKeepsTheLedLaws : Prop :=
  ∀ s t, s.LedInv → step s = .next t → t.LedInv

/-- `TICK` and `RX` commute, refusals included: in either order they reach one outcome (the spec's own
inference in 70_reset_and_hazards.md R201). -/
def Obligations.TickAndRxCommute : Prop :=
  ∀ inp i s, IsRx i →
    andThen (exec (.tick inp) s) (exec i) = andThen (exec i s) (exec (.tick inp))

/-- Through both data paths: with distinct upper identifiers, a tick in which upper button `i` alone is
newly pressed sends one packet, and receiving that packet sets LED `i`, and no other, to (0,254,0) and
flushes (44_led_mapper.md R160, 41_tracker.md R102; program P2 of 95_test_vectors.md). -/
def Obligations.EchoedPressLightsItsLed : Prop :=
  ∀ (s : State) (inp : Snapshot) (i : Fin 5), s.Inv → inp.inRange s.cfg = true →
    (∀ j, s.cfg.upperId.get j = s.cfg.upperId.get i → j = i) →
    s.upperLast.get i = 1#1 → Quiet s { inp with upper := inp.upper.set i 1#1 } →
    inp.upper.get i = 0#1 →
    ∃ t p u, exec (.tick inp) s = .next t ∧ t.tx = s.tx ++ [p] ∧
      exec (.rxPoll (some p)) t = .next u ∧
      (∀ k : Nat, u.led[k]? = if k = i.val then some ⟨0x00#8, 0xFE#8, 0x00#8⟩ else s.led[k]?) ∧
      u.flushes = s.flushes ++ [u.led]

/-! ### Statements added after the first review -/

/-- R120, R121, R122: the three encoders give the packet of the encode table in their domain, and refuse
every argument outside it. -/
def Obligations.EncodersFollowTheEncodeTable : Prop :=
  ∀ ch a b : Nat,
    (ch ≤ 15 → a ≤ 127 → b ≤ 127 →
      encEvent (.noteOn ch a b) =
        .ok ⟨0x09#8, 0x90#8 ||| BitVec.ofNat 8 ch, BitVec.ofNat 8 a, BitVec.ofNat 8 b⟩ ∧
      encEvent (.noteOff ch a b) =
        .ok ⟨0x08#8, 0x80#8 ||| BitVec.ofNat 8 ch, BitVec.ofNat 8 a, BitVec.ofNat 8 b⟩ ∧
      encEvent (.controlChange ch a b) =
        .ok ⟨0x0B#8, 0xB0#8 ||| BitVec.ofNat 8 ch, BitVec.ofNat 8 a, BitVec.ofNat 8 b⟩) ∧
    (15 < ch ∨ 127 < a ∨ 127 < b →
      encEvent (.noteOn ch a b) = .error .encodeOutOfDomain ∧
      encEvent (.noteOff ch a b) = .error .encodeOutOfDomain ∧
      encEvent (.controlChange ch a b) = .error .encodeOutOfDomain)

/-- "chosen freshly for each write" (44_led_mapper.md R162) across a whole run, in this model's form (log
entries 5 and 17): no step, `RESET` among them, puts the count of free values back; a step draws at most
five; and an LED entry that a step changes holds its reset value, twice a 7-bit value as green, or a free
value that this very step has drawn. -/
def Obligations.FreeValuesAreNeverDrawnTwice : Prop :=
  ∀ s t : State, step s = .next t →
    s.draws ≤ t.draws ∧ t.draws ≤ s.draws + 5 ∧
    (∀ rest, s.pending = .reset :: rest → t.draws = s.draws) ∧
    ∀ k : Nat, t.led[k]? ≠ s.led[k]? →
      t.led[k]? = s.cfg.ledInit[k]? ∨
      (∃ x : Nat, x ≤ 127 ∧ t.led[k]? = some (⟨0#8, BitVec.ofNat 8 (2 * x), 0#8⟩ : Rgb)) ∨
      ∃ n, s.draws ≤ n ∧ n < t.draws ∧ t.led[k]? = some (Config.anyRgb n)

/-- Which runs are refused, exactly: under a configuration within the contract, a run of `k` steps is refused
for a reason just when that reason is the one of the first of its `k` oldest requests that breaks the
contract. So every request before it completes, a run once refused is refused for the same reason however
many more operations are asked for, and no `RESET`, before the breach or after it, changes that
(60_exceptions.md R171, 70_reset_and_hazards.md R190). A run under a broken configuration is refused from
its first request on, if that is `RESET` too. The refused outcome as the mark, the queue and the name for
bytes that are no packet are the model's choices (log entries 9, 3 and 10). -/
def Obligations.RefusedRunsStayRefused : Prop :=
  (∀ (k : Nat) (s : State) (r : Refusal), s.cfg.admissible = true →
    (Host.Core.run Sys2Proof.core k s = .refused r ↔
      (s.pending.take k).findSome? (breach s.cfg) = some r)) ∧
  ∀ s : State, s.cfg.admissible = false → s.pending ≠ [] →
    ∃ r, ∀ k, Host.Core.run Sys2Proof.core (k + 1) s = .refused r
end

