-- ==== Sys2Proof/Laws/State.lean ====
section
/-! SUPPORT. One lemma per field per update of State, and the register banks' own small lemmas. -/

namespace Sys2Proof

namespace Five

variable {α : Type}

theorem get_set (v : Five α) (i j : Fin 5) (a : α) :
    (v.set i a).get j = if j = i then a else v.get j := by
  fin_cases i <;> fin_cases j <;> rfl

@[simp] theorem get_set_self (v : Five α) (i : Fin 5) (a : α) : (v.set i a).get i = a := by
  simp [get_set]

@[simp] theorem get_ofFn (f : Fin 5 → α) (i : Fin 5) : (ofFn f).get i = f i := by
  fin_cases i <;> rfl

@[simp] theorem get_const (a : α) (i : Fin 5) : (const a).get i = a := by
  fin_cases i <;> rfl

theorem ext_get {v w : Five α} (h : ∀ i, v.get i = w.get i) : v = w := by
  cases v
  cases w
  simpa [get] using And.intro (h 0) ⟨h 1, h 2, h 3, h 4⟩

/-- Every listed entry has a property exactly when the entry of every index has it. -/
theorem forall_mem_toList {p : α → Prop} (v : Five α) :
    (∀ a ∈ v.toList, p a) ↔ ∀ i, p (v.get i) := by
  simp [toList, Fin.forall_fin_succ, get]

end Five

namespace Four

variable {α : Type}

theorem get_set (v : Four α) (i j : Fin 4) (a : α) :
    (v.set i a).get j = if j = i then a else v.get j := by
  fin_cases i <;> fin_cases j <;> rfl

@[simp] theorem get_set_self (v : Four α) (i : Fin 4) (a : α) : (v.set i a).get i = a := by
  simp [get_set]

@[simp] theorem get_ofFn (f : Fin 4 → α) (i : Fin 4) : (ofFn f).get i = f i := by
  fin_cases i <;> rfl

@[simp] theorem get_const (a : α) (i : Fin 4) : (const a).get i = a := by
  fin_cases i <;> rfl

theorem ext_get {v w : Four α} (h : ∀ i, v.get i = w.get i) : v = w := by
  cases v
  cases w
  simpa [get] using And.intro (h 0) ⟨h 1, h 2, h 3⟩

/-- Every listed entry has a property exactly when the entry of every index has it. -/
theorem forall_mem_toList {p : α → Prop} (v : Four α) :
    (∀ a ∈ v.toList, p a) ↔ ∀ i, p (v.get i) := by
  simp [toList, Fin.forall_fin_succ, get]

end Four

namespace Machine

variable (s : State)

@[simp] theorem State.setButtonLast_cfg (row : Row) (i : Fin 5) (b : Bit) : (s.setButtonLast row i b).cfg = s.cfg := by cases row <;> rfl
@[simp] theorem State.setButtonLast_sliderLast (row : Row) (i : Fin 5) (b : Bit) : (s.setButtonLast row i b).sliderLast = s.sliderLast := by cases row <;> rfl
@[simp] theorem State.setButtonLast_knobLast (row : Row) (i : Fin 5) (b : Bit) : (s.setButtonLast row i b).knobLast = s.knobLast := by cases row <;> rfl
@[simp] theorem State.setButtonLast_led (row : Row) (i : Fin 5) (b : Bit) : (s.setButtonLast row i b).led = s.led := by cases row <;> rfl
@[simp] theorem State.setButtonLast_tx (row : Row) (i : Fin 5) (b : Bit) : (s.setButtonLast row i b).tx = s.tx := by cases row <;> rfl
@[simp] theorem State.setButtonLast_flushes (row : Row) (i : Fin 5) (b : Bit) : (s.setButtonLast row i b).flushes = s.flushes := by cases row <;> rfl
@[simp] theorem State.setButtonLast_report (row : Row) (i : Fin 5) (b : Bit) : (s.setButtonLast row i b).report = s.report := by cases row <;> rfl
@[simp] theorem State.setButtonLast_encoded (row : Row) (i : Fin 5) (b : Bit) : (s.setButtonLast row i b).encoded = s.encoded := by cases row <;> rfl
@[simp] theorem State.setButtonLast_draws (row : Row) (i : Fin 5) (b : Bit) : (s.setButtonLast row i b).draws = s.draws := by cases row <;> rfl
@[simp] theorem State.setButtonLast_pending (row : Row) (i : Fin 5) (b : Bit) : (s.setButtonLast row i b).pending = s.pending := by cases row <;> rfl

@[simp] theorem State.setSliderLast_cfg (i : Fin 5) (v : Nat) : (s.setSliderLast i v).cfg = s.cfg := rfl
@[simp] theorem State.setSliderLast_upperLast (i : Fin 5) (v : Nat) : (s.setSliderLast i v).upperLast = s.upperLast := rfl
@[simp] theorem State.setSliderLast_lowerLast (i : Fin 5) (v : Nat) : (s.setSliderLast i v).lowerLast = s.lowerLast := rfl
@[simp] theorem State.setSliderLast_sliderLast (i : Fin 5) (v : Nat) : (s.setSliderLast i v).sliderLast = s.sliderLast.set i v := rfl
@[simp] theorem State.setSliderLast_knobLast (i : Fin 5) (v : Nat) : (s.setSliderLast i v).knobLast = s.knobLast := rfl
@[simp] theorem State.setSliderLast_led (i : Fin 5) (v : Nat) : (s.setSliderLast i v).led = s.led := rfl
@[simp] theorem State.setSliderLast_tx (i : Fin 5) (v : Nat) : (s.setSliderLast i v).tx = s.tx := rfl
@[simp] theorem State.setSliderLast_flushes (i : Fin 5) (v : Nat) : (s.setSliderLast i v).flushes = s.flushes := rfl
@[simp] theorem State.setSliderLast_report (i : Fin 5) (v : Nat) : (s.setSliderLast i v).report = s.report := rfl
@[simp] theorem State.setSliderLast_encoded (i : Fin 5) (v : Nat) : (s.setSliderLast i v).encoded = s.encoded := rfl
@[simp] theorem State.setSliderLast_draws (i : Fin 5) (v : Nat) : (s.setSliderLast i v).draws = s.draws := rfl
@[simp] theorem State.setSliderLast_pending (i : Fin 5) (v : Nat) : (s.setSliderLast i v).pending = s.pending := rfl

@[simp] theorem State.setKnobLast_cfg (i : Fin 4) (v : Nat) : (s.setKnobLast i v).cfg = s.cfg := rfl
@[simp] theorem State.setKnobLast_upperLast (i : Fin 4) (v : Nat) : (s.setKnobLast i v).upperLast = s.upperLast := rfl
@[simp] theorem State.setKnobLast_lowerLast (i : Fin 4) (v : Nat) : (s.setKnobLast i v).lowerLast = s.lowerLast := rfl
@[simp] theorem State.setKnobLast_sliderLast (i : Fin 4) (v : Nat) : (s.setKnobLast i v).sliderLast = s.sliderLast := rfl
@[simp] theorem State.setKnobLast_knobLast (i : Fin 4) (v : Nat) : (s.setKnobLast i v).knobLast = s.knobLast.set i v := rfl
@[simp] theorem State.setKnobLast_led (i : Fin 4) (v : Nat) : (s.setKnobLast i v).led = s.led := rfl
@[simp] theorem State.setKnobLast_tx (i : Fin 4) (v : Nat) : (s.setKnobLast i v).tx = s.tx := rfl
@[simp] theorem State.setKnobLast_flushes (i : Fin 4) (v : Nat) : (s.setKnobLast i v).flushes = s.flushes := rfl
@[simp] theorem State.setKnobLast_report (i : Fin 4) (v : Nat) : (s.setKnobLast i v).report = s.report := rfl
@[simp] theorem State.setKnobLast_encoded (i : Fin 4) (v : Nat) : (s.setKnobLast i v).encoded = s.encoded := rfl
@[simp] theorem State.setKnobLast_draws (i : Fin 4) (v : Nat) : (s.setKnobLast i v).draws = s.draws := rfl
@[simp] theorem State.setKnobLast_pending (i : Fin 4) (v : Nat) : (s.setKnobLast i v).pending = s.pending := rfl

@[simp] theorem State.send_cfg (p : Packet) : (s.send p).cfg = s.cfg := rfl
@[simp] theorem State.send_upperLast (p : Packet) : (s.send p).upperLast = s.upperLast := rfl
@[simp] theorem State.send_lowerLast (p : Packet) : (s.send p).lowerLast = s.lowerLast := rfl
@[simp] theorem State.send_sliderLast (p : Packet) : (s.send p).sliderLast = s.sliderLast := rfl
@[simp] theorem State.send_knobLast (p : Packet) : (s.send p).knobLast = s.knobLast := rfl
@[simp] theorem State.send_led (p : Packet) : (s.send p).led = s.led := rfl
@[simp] theorem State.send_tx (p : Packet) : (s.send p).tx = s.tx ++ [p] := rfl
@[simp] theorem State.send_flushes (p : Packet) : (s.send p).flushes = s.flushes := rfl
@[simp] theorem State.send_report (p : Packet) : (s.send p).report = s.report := rfl
@[simp] theorem State.send_encoded (p : Packet) : (s.send p).encoded = s.encoded := rfl
@[simp] theorem State.send_draws (p : Packet) : (s.send p).draws = s.draws := rfl
@[simp] theorem State.send_pending (p : Packet) : (s.send p).pending = s.pending := rfl

@[simp] theorem State.setPixel_cfg (i : Nat) (c : Rgb) : (s.setPixel i c).cfg = s.cfg := rfl
@[simp] theorem State.setPixel_upperLast (i : Nat) (c : Rgb) : (s.setPixel i c).upperLast = s.upperLast := rfl
@[simp] theorem State.setPixel_lowerLast (i : Nat) (c : Rgb) : (s.setPixel i c).lowerLast = s.lowerLast := rfl
@[simp] theorem State.setPixel_sliderLast (i : Nat) (c : Rgb) : (s.setPixel i c).sliderLast = s.sliderLast := rfl
@[simp] theorem State.setPixel_knobLast (i : Nat) (c : Rgb) : (s.setPixel i c).knobLast = s.knobLast := rfl
@[simp] theorem State.setPixel_led (i : Nat) (c : Rgb) : (s.setPixel i c).led = s.led.set i c := rfl
@[simp] theorem State.setPixel_tx (i : Nat) (c : Rgb) : (s.setPixel i c).tx = s.tx := rfl
@[simp] theorem State.setPixel_flushes (i : Nat) (c : Rgb) : (s.setPixel i c).flushes = s.flushes := rfl
@[simp] theorem State.setPixel_report (i : Nat) (c : Rgb) : (s.setPixel i c).report = s.report := rfl
@[simp] theorem State.setPixel_encoded (i : Nat) (c : Rgb) : (s.setPixel i c).encoded = s.encoded := rfl
@[simp] theorem State.setPixel_draws (i : Nat) (c : Rgb) : (s.setPixel i c).draws = s.draws := rfl
@[simp] theorem State.setPixel_pending (i : Nat) (c : Rgb) : (s.setPixel i c).pending = s.pending := rfl

@[simp] theorem State.flush_cfg : (s.flush).cfg = s.cfg := rfl
@[simp] theorem State.flush_upperLast : (s.flush).upperLast = s.upperLast := rfl
@[simp] theorem State.flush_lowerLast : (s.flush).lowerLast = s.lowerLast := rfl
@[simp] theorem State.flush_sliderLast : (s.flush).sliderLast = s.sliderLast := rfl
@[simp] theorem State.flush_knobLast : (s.flush).knobLast = s.knobLast := rfl
@[simp] theorem State.flush_led : (s.flush).led = s.led := rfl
@[simp] theorem State.flush_tx : (s.flush).tx = s.tx := rfl
@[simp] theorem State.flush_flushes : (s.flush).flushes = s.flushes ++ [s.led] := rfl
@[simp] theorem State.flush_report : (s.flush).report = s.report := rfl
@[simp] theorem State.flush_encoded : (s.flush).encoded = s.encoded := rfl
@[simp] theorem State.flush_draws : (s.flush).draws = s.draws := rfl
@[simp] theorem State.flush_pending : (s.flush).pending = s.pending := rfl

@[simp] theorem State.withReport_cfg (r : DecodeResult) : (s.withReport r).cfg = s.cfg := rfl
@[simp] theorem State.withReport_upperLast (r : DecodeResult) : (s.withReport r).upperLast = s.upperLast := rfl
@[simp] theorem State.withReport_lowerLast (r : DecodeResult) : (s.withReport r).lowerLast = s.lowerLast := rfl
@[simp] theorem State.withReport_sliderLast (r : DecodeResult) : (s.withReport r).sliderLast = s.sliderLast := rfl
@[simp] theorem State.withReport_knobLast (r : DecodeResult) : (s.withReport r).knobLast = s.knobLast := rfl
@[simp] theorem State.withReport_led (r : DecodeResult) : (s.withReport r).led = s.led := rfl
@[simp] theorem State.withReport_tx (r : DecodeResult) : (s.withReport r).tx = s.tx := rfl
@[simp] theorem State.withReport_flushes (r : DecodeResult) : (s.withReport r).flushes = s.flushes := rfl
@[simp] theorem State.withReport_report (r : DecodeResult) : (s.withReport r).report = some r := rfl
@[simp] theorem State.withReport_encoded (r : DecodeResult) : (s.withReport r).encoded = s.encoded := rfl
@[simp] theorem State.withReport_draws (r : DecodeResult) : (s.withReport r).draws = s.draws := rfl
@[simp] theorem State.withReport_pending (r : DecodeResult) : (s.withReport r).pending = s.pending := rfl

@[simp] theorem State.withEncoded_cfg (p : Packet) : (s.withEncoded p).cfg = s.cfg := rfl
@[simp] theorem State.withEncoded_upperLast (p : Packet) : (s.withEncoded p).upperLast = s.upperLast := rfl
@[simp] theorem State.withEncoded_lowerLast (p : Packet) : (s.withEncoded p).lowerLast = s.lowerLast := rfl
@[simp] theorem State.withEncoded_sliderLast (p : Packet) : (s.withEncoded p).sliderLast = s.sliderLast := rfl
@[simp] theorem State.withEncoded_knobLast (p : Packet) : (s.withEncoded p).knobLast = s.knobLast := rfl
@[simp] theorem State.withEncoded_led (p : Packet) : (s.withEncoded p).led = s.led := rfl
@[simp] theorem State.withEncoded_tx (p : Packet) : (s.withEncoded p).tx = s.tx := rfl
@[simp] theorem State.withEncoded_flushes (p : Packet) : (s.withEncoded p).flushes = s.flushes := rfl
@[simp] theorem State.withEncoded_report (p : Packet) : (s.withEncoded p).report = s.report := rfl
@[simp] theorem State.withEncoded_encoded (p : Packet) : (s.withEncoded p).encoded = some p := rfl
@[simp] theorem State.withEncoded_draws (p : Packet) : (s.withEncoded p).draws = s.draws := rfl
@[simp] theorem State.withEncoded_pending (p : Packet) : (s.withEncoded p).pending = s.pending := rfl

@[simp] theorem State.drawRgb_snd_cfg : (s.drawRgb.2).cfg = s.cfg := rfl
@[simp] theorem State.drawRgb_snd_upperLast : (s.drawRgb.2).upperLast = s.upperLast := rfl
@[simp] theorem State.drawRgb_snd_lowerLast : (s.drawRgb.2).lowerLast = s.lowerLast := rfl
@[simp] theorem State.drawRgb_snd_sliderLast : (s.drawRgb.2).sliderLast = s.sliderLast := rfl
@[simp] theorem State.drawRgb_snd_knobLast : (s.drawRgb.2).knobLast = s.knobLast := rfl
@[simp] theorem State.drawRgb_snd_led : (s.drawRgb.2).led = s.led := rfl
@[simp] theorem State.drawRgb_snd_tx : (s.drawRgb.2).tx = s.tx := rfl
@[simp] theorem State.drawRgb_snd_flushes : (s.drawRgb.2).flushes = s.flushes := rfl
@[simp] theorem State.drawRgb_snd_report : (s.drawRgb.2).report = s.report := rfl
@[simp] theorem State.drawRgb_snd_encoded : (s.drawRgb.2).encoded = s.encoded := rfl
@[simp] theorem State.drawRgb_snd_draws : (s.drawRgb.2).draws = s.draws + 1 := rfl
@[simp] theorem State.drawRgb_snd_pending : (s.drawRgb.2).pending = s.pending := rfl

@[simp] theorem State.applyReset_cfg : (s.applyReset).cfg = s.cfg := rfl
@[simp] theorem State.applyReset_upperLast : (s.applyReset).upperLast = s.cfg.resetUpperLast := rfl
@[simp] theorem State.applyReset_lowerLast : (s.applyReset).lowerLast = s.cfg.resetLowerLast := rfl
@[simp] theorem State.applyReset_sliderLast : (s.applyReset).sliderLast = s.cfg.resetSliderLast := rfl
@[simp] theorem State.applyReset_knobLast : (s.applyReset).knobLast = s.cfg.resetKnobLast := rfl
@[simp] theorem State.applyReset_led : (s.applyReset).led = s.cfg.ledInit := rfl
@[simp] theorem State.applyReset_tx : (s.applyReset).tx = [] := rfl
@[simp] theorem State.applyReset_flushes : (s.applyReset).flushes = [] := rfl
@[simp] theorem State.applyReset_report : (s.applyReset).report = none := rfl
@[simp] theorem State.applyReset_encoded : (s.applyReset).encoded = none := rfl
@[simp] theorem State.applyReset_draws : (s.applyReset).draws = s.draws := rfl
@[simp] theorem State.applyReset_pending : (s.applyReset).pending = s.pending := rfl

@[simp] theorem State.afterTick_cfg (inp : Snapshot) : (s.afterTick inp).cfg = s.cfg := rfl
@[simp] theorem State.afterTick_upperLast (inp : Snapshot) : (s.afterTick inp).upperLast = inp.upper := rfl
@[simp] theorem State.afterTick_lowerLast (inp : Snapshot) : (s.afterTick inp).lowerLast = inp.lower := rfl
@[simp] theorem State.afterTick_led (inp : Snapshot) : (s.afterTick inp).led = s.led := rfl
@[simp] theorem State.afterTick_flushes (inp : Snapshot) : (s.afterTick inp).flushes = s.flushes := rfl
@[simp] theorem State.afterTick_report (inp : Snapshot) : (s.afterTick inp).report = s.report := rfl
@[simp] theorem State.afterTick_encoded (inp : Snapshot) : (s.afterTick inp).encoded = s.encoded := rfl
@[simp] theorem State.afterTick_draws (inp : Snapshot) : (s.afterTick inp).draws = s.draws := rfl
@[simp] theorem State.afterTick_pending (inp : Snapshot) : (s.afterTick inp).pending = s.pending := rfl

@[simp] theorem State.setButtonLast_self (row : Row) (i : Fin 5) (b : Bit) :
    (s.setButtonLast row i b).buttonLast row = (s.buttonLast row).set i b := by
  cases row <;> rfl

theorem State.setButtonLast_upperLast (row : Row) (i : Fin 5) (b : Bit) :
    (s.setButtonLast row i b).upperLast = if row = .upper then s.upperLast.set i b else s.upperLast := by
  cases row <;> rfl

theorem State.setButtonLast_lowerLast (row : Row) (i : Fin 5) (b : Bit) :
    (s.setButtonLast row i b).lowerLast = if row = .lower then s.lowerLast.set i b else s.lowerLast := by
  cases row <;> rfl

@[simp] theorem State.send_buttonLast (p : Packet) (row : Row) :
    (s.send p).buttonLast row = s.buttonLast row := by
  cases row <;> rfl

@[simp] theorem State.drawRgb_fst : s.drawRgb.1 = Config.anyRgb s.draws := rfl

end Machine

end Sys2Proof
end

