-- ==== Sys2Proof/Laws/Ops.lean ====
section
/-! SUPPORT. One lemma for each shared operation, saying once what it can answer. -/

namespace Sys2Proof

/-- The contract of R6, R10 and R11 on a configuration, entry by entry. -/
theorem Config.admissible_iff (c : Config) :
    c.admissible = true ↔
      7 ≤ c.R ∧ (∀ i, c.upperId.get i ≤ 127) ∧ (∀ i, c.lowerId.get i ≤ 127) ∧ 5 ≤ c.nled := by
  simp only [Config.admissible, Config.idsInRange, Bool.and_eq_true, decide_eq_true_eq,
    List.all_eq_true, List.mem_append, or_imp, forall_and, Five.forall_mem_toList]
  tauto

theorem Config.wf_iff (c : Config) :
    c.wf = true ↔
      c.admissible = true ∧ (∀ i, c.resetSliderLast.get i < 2 ^ c.R) ∧
        ∀ i, c.resetKnobLast.get i < 2 ^ c.R := by
  simp only [Config.wf, Config.resetInRange, Bool.and_eq_true, decide_eq_true_eq,
    List.all_eq_true, List.mem_append, or_imp, forall_and, Five.forall_mem_toList,
    Four.forall_mem_toList]

/-- `CF` is a power of two once R is at least 7 (R6, R7). -/
theorem Config.cf_eq (c : Config) (h : 7 ≤ c.R) : c.cf = 2 ^ (c.R - 7) := by
  rw [Config.cf, show (128 : Nat) = 2 ^ 7 from rfl, Nat.pow_div h (by decide)]

theorem Config.cf_pos (c : Config) (h : 7 ≤ c.R) : 0 < c.cf := by
  rw [c.cf_eq h]
  positivity

/-- The whole range of samples is 128 steps of `CF` (R7). -/
theorem Config.two_pow_R (c : Config) (h : 7 ≤ c.R) : 2 ^ c.R = 128 * c.cf := by
  rw [c.cf_eq h, show (128 : Nat) = 2 ^ 7 from rfl, ← pow_add]
  congr 1
  omega

theorem sampleInRange_iff (c : Config) (v : Int) :
    sampleInRange c v = true ↔ 0 ≤ v ∧ v < 2 ^ c.R := by
  simp only [sampleInRange, Bool.and_eq_true, decide_eq_true_eq]
  refine and_congr_right fun h => ?_
  obtain ⟨n, rfl⟩ := Int.eq_ofNat_of_zero_le h
  norm_cast

theorem Snapshot.inRange_iff (c : Config) (inp : Snapshot) :
    inp.inRange c = true ↔
      (∀ i, 0 ≤ inp.slider.get i ∧ inp.slider.get i < 2 ^ c.R) ∧
        ∀ i, 0 ≤ inp.knob.get i ∧ inp.knob.get i < 2 ^ c.R := by
  simp only [Snapshot.inRange, List.all_eq_true, List.mem_append, or_imp, forall_and,
    sampleInRange_iff, Five.forall_mem_toList, Four.forall_mem_toList]
  tauto

theorem inEncodeDomain_iff (ch a b : Nat) :
    inEncodeDomain ch a b = true ↔ ch ≤ 15 ∧ a ≤ 127 ∧ b ≤ 127 := by
  simp [inEncodeDomain, and_assoc]

namespace Machine

@[simp] theorem andThen_next (s : State) (f : State → Result) : andThen (.next s) f = f s := rfl

@[simp] theorem andThen_refused (r : Refusal) (f : State → Result) :
    andThen (.refused r) f = .refused r := rfl

/-- Two operations reach a state exactly through one in between. -/
theorem andThen_eq_next {r : Result} {f : State → Result} {t : State} :
    andThen r f = .next t ↔ ∃ s, r = .next s ∧ f s = .next t := by
  cases r <;> simp [andThen]

theorem andThen_assoc (r : Result) (f g : State → Result) :
    andThen (andThen r f) g = andThen r fun s => andThen (f s) g := by
  cases r <;> rfl

@[simp] theorem emit_ok (s : State) (p : Packet) : s.emit (.ok p) = .next (s.send p) := rfl

@[simp] theorem emit_error (s : State) (r : Refusal) : s.emit (.error r) = .refused r := rfl

/-- An emission reaches a state only by sending the packet its encoder gave. -/
theorem emit_eq_next {s t : State} {e : Except Refusal Packet} :
    s.emit e = .next t ↔ ∃ p, e = .ok p ∧ t = s.send p := by
  cases e <;> simp [State.emit, eq_comm]

@[simp] theorem returnEncoded_ok (s : State) (p : Packet) :
    s.returnEncoded (.ok p) = .next (s.withEncoded p) := rfl

@[simp] theorem returnEncoded_error (s : State) (r : Refusal) :
    s.returnEncoded (.error r) = .refused r := rfl

/-- An encode row reaches a state only by giving the packet its encoder gave. -/
theorem returnEncoded_eq_next {s t : State} {e : Except Refusal Packet} :
    s.returnEncoded e = .next t ↔ ∃ p, e = .ok p ∧ t = s.withEncoded p := by
  cases e <;> simp [State.returnEncoded, eq_comm]

/-- A configuration is refused exactly when it is outside the contract of R171. -/
theorem configRefusal_eq_none (c : Config) : configRefusal c = none ↔ c.admissible = true := by
  unfold configRefusal Config.admissible
  by_cases h1 : c.R < 7
  · simp [h1]
  · by_cases h2 : c.idsInRange = true
    · by_cases h3 : c.nled < 5
      · simp [h1, h2, h3]
      · simp [h1, h2, h3, Nat.le_of_not_lt h1, Nat.le_of_not_lt h3]
    · simp [h1, h2]

/-- Everything a fetch can do. -/
theorem fetch_cases (s : State) :
    (s.pending = [] ∧ fetch s = (.idle, s)) ∨
    (∃ q rest r, s.pending = q :: rest ∧ configRefusal s.cfg = some r ∧ fetch s = (.refuse r, s)) ∨
    (∃ q rest, s.pending = q :: rest ∧ s.cfg.admissible = true ∧
      fetch s = (q.action, { s with pending := rest })) := by
  unfold fetch
  cases hp : s.pending with
  | nil => exact .inl ⟨rfl, rfl⟩
  | cons q rest =>
    cases hc : configRefusal s.cfg with
    | some r => exact .inr (.inl ⟨q, rest, r, rfl, rfl, by simp⟩)
    | none => exact .inr (.inr ⟨q, rest, rfl, (configRefusal_eq_none _).1 hc, by simp⟩)

/-- What a request asks for is `RESET`, one instruction, or (bytes of no packet) a refusal. -/
theorem Request.action_cases (q : Request) :
    q.action = .reset ∨ (∃ i, q.action = .run i) ∨ ∃ r, q.action = .refuse r := by
  cases q with
  | reset => exact .inl rfl
  | tick inp => exact .inr (.inl ⟨_, rfl⟩)
  | rx p => exact .inr (.inl ⟨_, rfl⟩)
  | wire d bytes =>
    cases h : decode d bytes with
    | ok i => exact .inr (.inl ⟨i, by simp [Request.action, h]⟩)
    | error e => exact .inr (.inr ⟨_, by simp [Request.action, h]; rfl⟩)

/-- Everything a step that reaches a state can have done: nothing, `RESET`, or one instruction. -/
theorem step_eq_next {s t : State} (h : step s = .next t) :
    (s.pending = [] ∧ t = s) ∨
    (∃ q rest, s.pending = q :: rest ∧ s.cfg.admissible = true ∧
      (q.action = .reset ∧ t = ({ s with pending := rest } : State).applyReset ∨
        ∃ i, q.action = .run i ∧ exec i { s with pending := rest } = .next t)) := by
  rcases fetch_cases s with ⟨hp, hf⟩ | ⟨q, rest, r, hp, hc, hf⟩ | ⟨q, rest, hp, hc, hf⟩
  · refine .inl ⟨hp, ?_⟩
    simpa [step, hf, eq_comm] using h
  · simp [step, hf] at h
  · refine .inr ⟨q, rest, hp, hc, ?_⟩
    rcases q.action_cases with ha | ⟨i, ha⟩ | ⟨r, ha⟩
    · refine .inl ⟨ha, ?_⟩
      simpa [step, hf, ha, eq_comm] using h
    · refine .inr ⟨i, ha, ?_⟩
      simpa [step, hf, ha] using h
    · simp [step, hf, ha] at h

/-- A run goes on from the state its first step reaches. -/
theorem run_of_step_next {s t : State} (h : step s = .next t) (k : Nat) :
    Host.Core.run Sys2Proof.core (k + 1) s = Host.Core.run Sys2Proof.core k t := by
  have h' : Sys2Proof.core.step s = .next t := h
  simp [Host.Core.run, h']

/-- A run whose first step is refused is refused for that reason. -/
theorem run_of_step_refused {s : State} {r : Refusal} (h : step s = .refused r) (k : Nat) :
    Host.Core.run Sys2Proof.core (k + 1) s = .refused r := by
  have h' : Sys2Proof.core.step s = .refused r := h
  simp [Host.Core.run, h']

end Machine

end Sys2Proof
end

