-- ==== Sys2Proof/Laws/Codec.lean ====
section
/-! SUPPORT. The packet's fields, the encoders and the decoders. -/

namespace Sys2Proof

/-! ### Nibbles and bytes -/

@[simp] theorem hiNibble_byteOfNibbles (hi lo : Nibble) : hiNibble (byteOfNibbles hi lo) = hi := by
  revert hi lo
  decide

@[simp] theorem loNibble_byteOfNibbles (hi lo : Nibble) : loNibble (byteOfNibbles hi lo) = lo := by
  revert hi lo
  decide

@[simp] theorem byteOfNibbles_nibbles (b : Byte) : byteOfNibbles (hiNibble b) (loNibble b) = b := by
  revert b
  decide

/-- A byte is 0 exactly when both nibbles are. -/
theorem byteOfNibbles_eq_zero (hi lo : Nibble) :
    byteOfNibbles hi lo = 0x00#8 ↔ hi = 0x0#4 ∧ lo = 0x0#4 := by
  revert hi lo
  decide

theorem loNibble_toNat (b : Byte) : (loNibble b).toNat = b.toNat % 16 := by
  revert b
  decide

/-- The nibbles of `base | ch` for a nibble `ch` and a base byte whose low nibble is clear. -/
theorem status_nibbles (ch : Nat) (h : ch ≤ 15) (k : Nibble) :
    hiNibble (byteOfNibbles k 0x0#4 ||| BitVec.ofNat 8 ch) = k ∧
      (loNibble (byteOfNibbles k 0x0#4 ||| BitVec.ofNat 8 ch)).toNat = ch := by
  revert k
  interval_cases ch <;> decide

@[simp] theorem rxPacket_cin (cin : Nibble) (b : RxBody) : (rxPacket cin b).cin = cin := by
  simp [rxPacket, Packet.cin]

@[simp] theorem rxPacket_body (cin : Nibble) (b : RxBody) : (rxPacket cin b).body = b := by
  simp [rxPacket, Packet.body, Packet.cable]

theorem rxPacket_header_eq_zero (cin : Nibble) (b : RxBody) :
    (rxPacket cin b).header = 0x00#8 ↔ b.cable = 0x0#4 ∧ cin = 0x0#4 := by
  simp [rxPacket, byteOfNibbles_eq_zero]

/-- A packet is its CIN and its body (R65). -/
@[simp] theorem rxPacket_of_packet (p : Packet) : rxPacket p.cin p.body = p := by
  simp [rxPacket, Packet.cin, Packet.body, Packet.cable]

theorem Packet.header_eq_zero (p : Packet) : p.header = 0x00#8 ↔ p.cable = 0x0#4 ∧ p.cin = 0x0#4 := by
  have h := byteOfNibbles_eq_zero (hiNibble p.header) (loNibble p.header)
  rwa [byteOfNibbles_nibbles] at h

/-! ### The packets of the encode table (R66) -/

theorem noteOnPacket_fields (ch a b : Nat) (h : ch ≤ 15) (ha : a ≤ 127) (hb : b ≤ 127) :
    (noteOnPacket ch a b).cable = 0x0#4 ∧ (noteOnPacket ch a b).cin = 0x9#4 ∧
      (noteOnPacket ch a b).kind = 0x9#4 ∧ (noteOnPacket ch a b).chan.toNat = ch ∧
      (noteOnPacket ch a b).data1.toNat = a ∧ (noteOnPacket ch a b).data2.toNat = b := by
  obtain ⟨hk, hc⟩ := status_nibbles ch h 0x9#4
  have hd : hiNibble 0x09#8 = 0x0#4 ∧ loNibble 0x09#8 = 0x9#4 := by decide
  refine ⟨hd.1, hd.2, hk, hc, ?_, ?_⟩ <;> simp [noteOnPacket] <;> omega

theorem noteOffPacket_fields (ch a b : Nat) (h : ch ≤ 15) (ha : a ≤ 127) (hb : b ≤ 127) :
    (noteOffPacket ch a b).cable = 0x0#4 ∧ (noteOffPacket ch a b).cin = 0x8#4 ∧
      (noteOffPacket ch a b).kind = 0x8#4 ∧ (noteOffPacket ch a b).chan.toNat = ch ∧
      (noteOffPacket ch a b).data1.toNat = a ∧ (noteOffPacket ch a b).data2.toNat = b := by
  obtain ⟨hk, hc⟩ := status_nibbles ch h 0x8#4
  have hd : hiNibble 0x08#8 = 0x0#4 ∧ loNibble 0x08#8 = 0x8#4 := by decide
  refine ⟨hd.1, hd.2, hk, hc, ?_, ?_⟩ <;> simp [noteOffPacket] <;> omega

theorem ccPacket_fields (ch a b : Nat) (h : ch ≤ 15) (ha : a ≤ 127) (hb : b ≤ 127) :
    (ccPacket ch a b).cable = 0x0#4 ∧ (ccPacket ch a b).cin = 0xB#4 ∧
      (ccPacket ch a b).kind = 0xB#4 ∧ (ccPacket ch a b).chan.toNat = ch ∧
      (ccPacket ch a b).data1.toNat = a ∧ (ccPacket ch a b).data2.toNat = b := by
  obtain ⟨hk, hc⟩ := status_nibbles ch h 0xB#4
  have hd : hiNibble 0x0B#8 = 0x0#4 ∧ loNibble 0x0B#8 = 0xB#4 := by decide
  refine ⟨hd.1, hd.2, hk, hc, ?_, ?_⟩ <;> simp [ccPacket] <;> omega

/-! ### Decoding -/

@[simp] theorem decode_rx_bytes (p : Packet) : decode .rx p.bytes = .ok (decodeRx p) := rfl

theorem decode_tx_bytes (p : Packet) :
    decode .tx p.bytes =
      match decodeTx p with
      | some i => .ok i
      | none => .error .notATxPacket := rfl

/-- Decoding succeeds only on the four bytes of a packet. -/
theorem decode_ok {d : Direction} {bs : List Byte} {i : Instr} (h : decode d bs = .ok i) :
    ∃ p : Packet, bs = p.bytes ∧ (d = .rx ∧ i = decodeRx p ∨ d = .tx ∧ decodeTx p = some i) := by
  match bs with
  | [a, b, c, e] =>
    refine ⟨⟨a, b, c, e⟩, rfl, ?_⟩
    cases d with
    | rx =>
      have h' : Except.ok (decodeRx ⟨a, b, c, e⟩) = Except.ok (ε := DecodeError) i := h
      exact .inl ⟨rfl, (Except.ok.inj h').symm⟩
    | tx =>
      refine .inr ⟨rfl, ?_⟩
      have h' := decode_tx_bytes ⟨a, b, c, e⟩
      rw [show Packet.bytes ⟨a, b, c, e⟩ = [a, b, c, e] from rfl, h] at h'
      cases hd : decodeTx ⟨a, b, c, e⟩ with
      | some j => rw [hd] at h'; exact congrArg some (Except.ok.inj h').symm
      | none => rw [hd] at h'; cases h'
  | [] | [_] | [_, _] | [_, _, _] | _ :: _ :: _ :: _ :: _ :: _ => cases h

theorem decodeTx_noteOn (ch a b : Nat) (h : ch ≤ 15) (ha : a ≤ 127) (hb : b ≤ 127) :
    decodeTx (noteOnPacket ch a b) = some (.txNoteOn ch a b) := by
  obtain ⟨-, -, hk, hc, h1, h2⟩ := noteOnPacket_fields ch a b h ha hb
  have hh : (noteOnPacket ch a b).header = 0x09#8 := rfl
  simp [decodeTx, hk, hc, h1, h2, hh, ha, hb]

theorem decodeTx_noteOff (ch a b : Nat) (h : ch ≤ 15) (ha : a ≤ 127) (hb : b ≤ 127) :
    decodeTx (noteOffPacket ch a b) = some (.txNoteOff ch a b) := by
  obtain ⟨-, -, hk, hc, h1, h2⟩ := noteOffPacket_fields ch a b h ha hb
  have hh : (noteOffPacket ch a b).header = 0x08#8 := rfl
  simp [decodeTx, hk, hc, h1, h2, hh, ha, hb]

theorem decodeTx_cc (ch a b : Nat) (h : ch ≤ 15) (ha : a ≤ 127) (hb : b ≤ 127) :
    decodeTx (ccPacket ch a b) = some (.txCc ch a b) := by
  obtain ⟨-, -, hk, hc, h1, h2⟩ := ccPacket_fields ch a b h ha hb
  have hh : (ccPacket ch a b).header = 0x0B#8 := rfl
  simp [decodeTx, hk, hc, h1, h2, hh, ha, hb]

/-- `status` of a sent packet is its kind and channel. -/
theorem status_of_kind (s : Byte) (k : Nibble) (h : hiNibble s = k) :
    byteOfNibbles k 0x0#4 ||| BitVec.ofNat 8 (loNibble s).toNat = s := by
  subst h
  revert s
  decide

/-- A packet decoded as sent is the encoder's, of an event in the domain. -/
theorem decodeTx_some {p : Packet} {i : Instr} (h : decodeTx p = some i) :
    ∃ ch a b, ch ≤ 15 ∧ a ≤ 127 ∧ b ≤ 127 ∧
      (i = .txNoteOn ch a b ∧ p = noteOnPacket ch a b ∨
        i = .txNoteOff ch a b ∧ p = noteOffPacket ch a b ∨
        i = .txCc ch a b ∧ p = ccPacket ch a b) := by
  obtain ⟨hd, st, d1, d2⟩ := p
  unfold decodeTx at h
  split at h
  case isFalse => cases h
  case isTrue hdata =>
    have hch : (loNibble st).toNat ≤ 15 := Nat.le_of_lt_succ (loNibble st).isLt
    refine ⟨(loNibble st).toNat, d1.toNat, d2.toNat, hch, hdata.1, hdata.2, ?_⟩
    split at h
    case isTrue hk =>
      obtain ⟨rfl, hk⟩ : hd = 0x09#8 ∧ hiNibble st = 0x9#4 := hk
      refine .inl ⟨(Option.some.inj h).symm, ?_⟩
      have := status_of_kind st 0x9#4 hk
      simp only [noteOnPacket, Packet.mk.injEq, true_and]
      exact ⟨this.symm, by simp, by simp⟩
    case isFalse =>
      split at h
      case isTrue hk =>
        obtain ⟨rfl, hk⟩ : hd = 0x08#8 ∧ hiNibble st = 0x8#4 := hk
        refine .inr (.inl ⟨(Option.some.inj h).symm, ?_⟩)
        have := status_of_kind st 0x8#4 hk
        simp only [noteOffPacket, Packet.mk.injEq, true_and]
        exact ⟨this.symm, by simp, by simp⟩
      case isFalse =>
        split at h
        case isTrue hk =>
          obtain ⟨rfl, hk⟩ : hd = 0x0B#8 ∧ hiNibble st = 0xB#4 := hk
          refine .inr (.inr ⟨(Option.some.inj h).symm, ?_⟩)
          have := status_of_kind st 0xB#4 hk
          simp only [ccPacket, Packet.mk.injEq, true_and]
          exact ⟨this.symm, by simp, by simp⟩
        case isFalse => cases h

namespace Machine

/-! ### The encoders' answers (R120 to R122) -/

theorem encNoteOn_eq_ok {ch a b : Nat} {p : Packet} :
    encNoteOn ch a b = .ok p ↔ (ch ≤ 15 ∧ a ≤ 127 ∧ b ≤ 127) ∧ p = noteOnPacket ch a b := by
  unfold encNoteOn
  split <;> rename_i h <;> rw [inEncodeDomain_iff] at h <;> simp [h, eq_comm]

theorem encNoteOff_eq_ok {ch a b : Nat} {p : Packet} :
    encNoteOff ch a b = .ok p ↔ (ch ≤ 15 ∧ a ≤ 127 ∧ b ≤ 127) ∧ p = noteOffPacket ch a b := by
  unfold encNoteOff
  split <;> rename_i h <;> rw [inEncodeDomain_iff] at h <;> simp [h, eq_comm]

theorem encCc_eq_ok {ch a b : Nat} {p : Packet} :
    encCc ch a b = .ok p ↔ (ch ≤ 15 ∧ a ≤ 127 ∧ b ≤ 127) ∧ p = ccPacket ch a b := by
  unfold encCc
  split <;> rename_i h <;> rw [inEncodeDomain_iff] at h <;> simp [h, eq_comm]

/-- An encoder refuses only by the reason R171 names. -/
theorem encEvent_error {e : MidiEvent} {r : Refusal} (h : encEvent e = .error r) :
    r = .encodeOutOfDomain := by
  cases e <;> simp only [encEvent, encNoteOn, encNoteOff, encCc] at h <;> split at h <;>
    simp_all

/-- Every packet an encoder gives meets the packet law (R123). -/
theorem sentPacketOk_encEvent {e : MidiEvent} {p : Packet} (h : encEvent e = .ok p) :
    sentPacketOk p = true := by
  cases e with
  | noteOn ch a b =>
    obtain ⟨⟨h0, h1, h2⟩, rfl⟩ := encNoteOn_eq_ok.1 h
    obtain ⟨f0, f1, f2, -, f4, f5⟩ := noteOnPacket_fields ch a b h0 h1 h2
    simp [sentPacketOk, f0, f1, f2, f4, f5, h1, h2]
  | noteOff ch a b =>
    obtain ⟨⟨h0, h1, h2⟩, rfl⟩ := encNoteOff_eq_ok.1 h
    obtain ⟨f0, f1, f2, -, f4, f5⟩ := noteOffPacket_fields ch a b h0 h1 h2
    simp [sentPacketOk, f0, f1, f2, f4, f5, h1, h2]
  | controlChange ch a b =>
    obtain ⟨⟨h0, h1, h2⟩, rfl⟩ := encCc_eq_ok.1 h
    obtain ⟨f0, f1, f2, -, f4, f5⟩ := ccPacket_fields ch a b h0 h1 h2
    simp [sentPacketOk, f0, f1, f2, f4, f5, h1, h2]

end Machine

/-! ### The word patterns of the receive rows (43_decoder.md) -/

/-- The CIN field of the word view (R51, R65). -/
theorem Packet.word_and_cin_mask (p : Packet) :
    p.toWord &&& 0x0F000000#32 = p.cin.setWidth 32 <<< 24 := by
  apply BitVec.eq_of_getLsbD_eq
  intro i hi
  simp only [Packet.toWord, Packet.cin, loNibble, BitVec.getLsbD_and, BitVec.getLsbD_append,
    BitVec.getLsbD_shiftLeft, BitVec.getLsbD_setWidth, BitVec.getLsbD_extractLsb']
  interval_cases i <;> simp

/-- A word matches the pattern of a CIN exactly when the packet has that CIN. -/
theorem Packet.word_matches_cin (p : Packet) (k : Nibble) (w : BitVec 32)
    (hw : k.setWidth 32 <<< 24 = w) : p.toWord &&& 0x0F000000#32 = w ↔ p.cin = k := by
  have inj : ∀ c k : Nibble, BitVec.ofNat 32 (c.toNat * 2 ^ 24) = BitVec.ofNat 32 (k.toNat * 2 ^ 24) ↔
      c = k := by
    decide
  have eq : ∀ c : Nibble, c.setWidth 32 <<< 24 = BitVec.ofNat 32 (c.toNat * 2 ^ 24) := by decide
  rw [p.word_and_cin_mask, ← hw, eq, eq, inj]

/-- A word matches the pattern of `RX_EMPTY` exactly when the whole header is 0 (R70). -/
theorem Packet.word_matches_empty (p : Packet) :
    p.toWord &&& 0xFF000000#32 = 0#32 ↔ p.header = 0x00#8 := by
  have hm : p.toWord &&& 0xFF000000#32 = p.header.setWidth 32 <<< 24 := by
    apply BitVec.eq_of_getLsbD_eq
    intro i hi
    simp only [Packet.toWord, BitVec.getLsbD_and, BitVec.getLsbD_append, BitVec.getLsbD_shiftLeft,
      BitVec.getLsbD_setWidth]
    interval_cases i <;> simp
  rw [hm]
  generalize p.header = h
  revert h
  decide

end Sys2Proof
end

