-- ==== Sys2Proof/Laws/Led.lean ====
section
/-! SUPPORT. The LED Feedback Mapper and the `rx-packet` rows. -/

namespace Sys2Proof.Machine

open Sys2Proof

/-- What no `RX` touches, and that it only appends to the flush log. -/
structure RxFrame (s t : State) : Prop where
  cfg : t.cfg = s.cfg
  upperLast : t.upperLast = s.upperLast
  lowerLast : t.lowerLast = s.lowerLast
  sliderLast : t.sliderLast = s.sliderLast
  knobLast : t.knobLast = s.knobLast
  tx : t.tx = s.tx
  encoded : t.encoded = s.encoded
  pending : t.pending = s.pending
  flushes : s.flushes <+: t.flushes

theorem RxFrame.refl (s : State) : RxFrame s s :=
  ⟨rfl, rfl, rfl, rfl, rfl, rfl, rfl, rfl, List.prefix_rfl⟩

theorem RxFrame.trans {s t u : State} (h : RxFrame s t) (k : RxFrame t u) : RxFrame s u :=
  ⟨k.cfg.trans h.cfg, k.upperLast.trans h.upperLast, k.lowerLast.trans h.lowerLast,
    k.sliderLast.trans h.sliderLast, k.knobLast.trans h.knobLast, k.tx.trans h.tx,
    k.encoded.trans h.encoded, k.pending.trans h.pending, h.flushes.trans k.flushes⟩

theorem RxFrame.flush (s : State) : RxFrame s s.flush :=
  ⟨rfl, rfl, rfl, rfl, rfl, rfl, rfl, rfl, List.prefix_append _ _⟩

theorem RxFrame.withReport (s : State) (r : DecodeResult) : RxFrame s (s.withReport r) :=
  ⟨rfl, rfl, rfl, rfl, rfl, rfl, rfl, rfl, List.prefix_rfl⟩

/-- A list of visits of the upper-button table. -/
def ledVisits (data1 data2 : Byte) (is : List (Fin 5)) (s : State) : State :=
  is.foldl (ledVisit data1 data2) s

theorem ledScan_eq (data1 data2 : Byte) (s : State) :
    ledScan data1 data2 s = ledVisits data1 data2 [0, 1, 2, 3, 4] s := rfl

/-- Everything one visit can do: nothing, or one write of a matching entry, of its green or of a fresh
free value. -/
theorem ledVisit_cases (data1 data2 : Byte) (s : State) (i : Fin 5) :
    (s.cfg.upperId.get i ≠ data1.toNat ∧ ledVisit data1 data2 s i = s) ∨
    (s.cfg.upperId.get i = data1.toNat ∧ data2.toNat ≤ 127 ∧
      ledVisit data1 data2 s i = s.setPixel i.val ⟨0, BitVec.ofNat 8 (2 * data2.toNat), 0⟩) ∨
    (s.cfg.upperId.get i = data1.toNat ∧ 127 < data2.toNat ∧
      ledVisit data1 data2 s i = s.drawRgb.2.setPixel i.val (Config.anyRgb s.draws)) := by
  unfold ledVisit ledMatches green
  by_cases hm : s.cfg.upperId.get i = data1.toNat
  · by_cases hd : data2.toNat ≤ 127
    · exact .inr (.inl ⟨hm, hd, by simp [hm, hd]⟩)
    · exact .inr (.inr ⟨hm, by omega, by simp [hm, hd]⟩)
  · exact .inl ⟨hm, by simp [hm]⟩

/-- What one visit touches: only the LED buffer, at its own entry, and the count of draws. -/
theorem ledVisit_frame (data1 data2 : Byte) (s : State) (i : Fin 5) :
    RxFrame s (ledVisit data1 data2 s i) ∧ (ledVisit data1 data2 s i).flushes = s.flushes ∧
      (ledVisit data1 data2 s i).report = s.report ∧
      (ledVisit data1 data2 s i).led.length = s.led.length ∧
      ∀ k, k ≠ i.val → (ledVisit data1 data2 s i).led[k]? = s.led[k]? := by
  rcases ledVisit_cases data1 data2 s i with ⟨-, h⟩ | ⟨-, -, h⟩ | ⟨-, -, h⟩ <;> rw [h]
  · exact ⟨.refl s, rfl, rfl, rfl, fun _ _ => rfl⟩
  · exact ⟨⟨rfl, rfl, rfl, rfl, rfl, rfl, rfl, rfl, List.prefix_rfl⟩, rfl, rfl, by simp, fun k hk => by
      simp [List.getElem?_set_ne (Ne.symm hk)]⟩
  · exact ⟨⟨rfl, rfl, rfl, rfl, rfl, rfl, rfl, rfl, List.prefix_rfl⟩, rfl, rfl, by simp, fun k hk => by
      simp [List.getElem?_set_ne (Ne.symm hk)]⟩

theorem ledVisits_frame (data1 data2 : Byte) : ∀ (is : List (Fin 5)) (s : State),
    RxFrame s (ledVisits data1 data2 is s) ∧ (ledVisits data1 data2 is s).flushes = s.flushes ∧
      (ledVisits data1 data2 is s).report = s.report ∧
      (ledVisits data1 data2 is s).led.length = s.led.length ∧
      ∀ k, (∀ i ∈ is, k ≠ i.val) → (ledVisits data1 data2 is s).led[k]? = s.led[k]? := by
  intro is
  induction is with
  | nil => intro s; exact ⟨.refl s, rfl, rfl, rfl, fun _ _ => rfl⟩
  | cons i is ih =>
    intro s
    obtain ⟨f1, f2, f3, f4, f5⟩ := ledVisit_frame data1 data2 s i
    obtain ⟨g1, g2, g3, g4, g5⟩ := ih (ledVisit data1 data2 s i)
    refine ⟨f1.trans g1, g2.trans f2, g3.trans f3, g4.trans f4, fun k hk => ?_⟩
    exact (g5 k fun j hj => hk j (List.mem_cons_of_mem _ hj)).trans (f5 k (hk i List.mem_cons_self))

/-- Some upper identifier equals `data1` (R160, R163). -/
theorem ledAnyMatch_iff (c : Config) (data1 : Byte) :
    ledAnyMatch c data1 = true ↔ ∃ i, c.upperId.get i = data1.toNat := by
  simp [ledAnyMatch, ledMatches, Fin.exists_fin_succ]

/-- The flush of `LED_MAP`: one, of the buffer it leaves, if an entry matched (R161). -/
theorem ledMap_flushes (v : Voice3) (s : State) :
    (ledMap v s).flushes =
      if ledAnyMatch s.cfg v.data1 = true then s.flushes ++ [(ledMap v s).led] else s.flushes := by
  have h := (ledVisits_frame v.data1 v.data2 [0, 1, 2, 3, 4] s).2.1
  unfold ledMap
  rw [ledScan_eq]
  split <;> simp [h]

/-- What `LED_MAP` touches: the first five LED entries, the flush log and the count of draws. -/
theorem ledMap_frame (v : Voice3) (s : State) :
    RxFrame s (ledMap v s) ∧ (ledMap v s).report = s.report ∧
      (ledMap v s).led.length = s.led.length ∧ ∀ k, 5 ≤ k → (ledMap v s).led[k]? = s.led[k]? := by
  obtain ⟨f1, f2, f3, f4, f5⟩ := ledVisits_frame v.data1 v.data2 [0, 1, 2, 3, 4] s
  have hk : ∀ k, 5 ≤ k → ∀ i ∈ ([0, 1, 2, 3, 4] : List (Fin 5)), k ≠ i.val := by
    intro k hk i _
    omega
  unfold ledMap
  rw [ledScan_eq]
  split
  · refine ⟨f1.trans (.flush _), ?_, ?_, fun k h => ?_⟩
    · rw [State.flush_report]
      exact f3
    · rw [State.flush_led]
      exact f4
    · rw [State.flush_led]
      exact f5 k (hk k h)
  · exact ⟨f1, f3, f4, fun k h => f5 k (hk k h)⟩

/-- With no match, `LED_MAP` does nothing (R163). -/
theorem ledMap_no_match (v : Voice3) (s : State) (h : ∀ i, s.cfg.upperId.get i ≠ v.data1.toNat) :
    ledMap v s = s := by
  have hv : ∀ i, ledVisit v.data1 v.data2 s i = s := fun i => by
    rcases ledVisit_cases v.data1 v.data2 s i with ⟨-, e⟩ | ⟨e, -⟩ | ⟨e, -⟩
    exacts [e, absurd e (h i), absurd e (h i)]
  have ha : ledAnyMatch s.cfg v.data1 = false := by
    rw [← Bool.not_eq_true, ledAnyMatch_iff]
    exact fun ⟨i, e⟩ => h i e
  simp [ledMap, ledScan, hv, ha]

/-! ### The effect of `LED_MAP` on the buffer, entry by entry -/

/-- A visited matching entry holds its green, or its own fresh draw: one further for each matching entry
visited before it (R160, R162). -/
theorem ledVisits_led_match (data1 data2 : Byte) : ∀ (is : List (Fin 5)), is.Nodup → ∀ (s : State),
    ∀ j ∈ is, j.val < s.led.length → s.cfg.upperId.get j = data1.toNat →
      (ledVisits data1 data2 is s).led[j.val]? =
        some (if data2.toNat ≤ 127 then ⟨0#8, BitVec.ofNat 8 (2 * data2.toNat), 0#8⟩
          else Config.anyRgb (s.draws +
            ((is.takeWhile (· ≠ j)).filter fun i => s.cfg.upperId.get i == data1.toNat).length)) := by
  intro is
  induction is with
  | nil => intro _ s j hj; cases hj
  | cons i is ih =>
    intro hn s j hj hl hm
    obtain ⟨hni, hn⟩ := List.nodup_cons.1 hn
    obtain ⟨f1, -, -, f4, -⟩ := ledVisit_frame data1 data2 s i
    by_cases hij : j = i
    · subst hij
      have hrest := (ledVisits_frame data1 data2 is (ledVisit data1 data2 s j)).2.2.2.2 j.val
        fun k hk e => hni (by rw [Fin.ext e]; exact hk)
      show (ledVisits data1 data2 is (ledVisit data1 data2 s j)).led[j.val]? = _
      rw [hrest]
      rcases ledVisit_cases data1 data2 s j with ⟨h, -⟩ | ⟨-, h, e⟩ | ⟨-, h, e⟩
      · exact absurd hm h
      · rw [e]
        simp [h, hl]
      · rw [e]
        simp [show ¬ data2.toNat ≤ 127 by omega, hl]
    · have hj' : j ∈ is := by simpa [hij] using hj
      have hrest := ih hn (ledVisit data1 data2 s i) j hj' (by rwa [f4]) (by rwa [f1.cfg])
      show (ledVisits data1 data2 is (ledVisit data1 data2 s i)).led[j.val]? = _
      rw [hrest, f1.cfg]
      by_cases hb : data2.toNat ≤ 127
      · simp [hb]
      · simp only [hb, if_false, Option.some.injEq]
        congr 1
        rw [List.takeWhile_cons_of_pos (by simpa using Ne.symm hij), List.filter_cons]
        rcases ledVisit_cases data1 data2 s i with ⟨h, e⟩ | ⟨-, h, -⟩ | ⟨h, -, e⟩
        · simp [e, h]
        · exact absurd h hb
        · simp [e, h]
          omega

/-- An entry whose identifier does not match is not written. -/
theorem ledVisits_led_no_match (data1 data2 : Byte) : ∀ (is : List (Fin 5)) (s : State) (k : Nat),
    (∀ j : Fin 5, j.val = k → s.cfg.upperId.get j ≠ data1.toNat) →
      (ledVisits data1 data2 is s).led[k]? = s.led[k]? := by
  intro is
  induction is with
  | nil => intro s k _; rfl
  | cons i is ih =>
    intro s k h
    obtain ⟨f1, -, -, -, f5⟩ := ledVisit_frame data1 data2 s i
    show (ledVisits data1 data2 is (ledVisit data1 data2 s i)).led[k]? = _
    rw [ih _ _ (by rw [f1.cfg]; exact h)]
    by_cases hk : k = i.val
    · rcases ledVisit_cases data1 data2 s i with ⟨-, e⟩ | ⟨h', -⟩ | ⟨h', -⟩
      · rw [e]
      · exact absurd h' (h i hk.symm)
      · exact absurd h' (h i hk.symm)
    · exact f5 k hk

/-- One draw for each matching entry visited, and none for a 7-bit value (R162). -/
theorem ledVisits_draws (data1 data2 : Byte) : ∀ (is : List (Fin 5)) (s : State),
    (ledVisits data1 data2 is s).draws =
      if data2.toNat ≤ 127 then s.draws
      else s.draws + (is.filter fun i => s.cfg.upperId.get i == data1.toNat).length := by
  intro is
  induction is with
  | nil => intro s; simp [ledVisits]
  | cons i is ih =>
    intro s
    show (ledVisits data1 data2 is (ledVisit data1 data2 s i)).draws = _
    rw [ih, (ledVisit_frame data1 data2 s i).1.cfg, List.filter_cons]
    rcases ledVisit_cases data1 data2 s i with ⟨h, e⟩ | ⟨-, h', e⟩ | ⟨h, h', e⟩ <;> rw [e]
    · simp [h]
    · simp [h']
    · simp [h, show ¬ data2.toNat ≤ 127 by omega]
      omega

/-- An entry a list of visits changes holds the green of a 7-bit value, or a free value drawn on the way
(R160, R162). -/
theorem ledVisits_changed (data1 data2 : Byte) : ∀ (is : List (Fin 5)) (s : State) (k : Nat),
    (ledVisits data1 data2 is s).led[k]? ≠ s.led[k]? →
      (∃ x : Nat, x ≤ 127 ∧ (ledVisits data1 data2 is s).led[k]? =
        some (⟨0#8, BitVec.ofNat 8 (2 * x), 0#8⟩ : Rgb)) ∨
      ∃ n, s.draws ≤ n ∧ n < (ledVisits data1 data2 is s).draws ∧
        (ledVisits data1 data2 is s).led[k]? = some (Config.anyRgb n) := by
  intro is
  induction is with
  | nil => intro s k h; exact absurd rfl h
  | cons i is ih =>
    intro s k h
    have hcons : ledVisits data1 data2 (i :: is) s =
        ledVisits data1 data2 is (ledVisit data1 data2 s i) := rfl
    rw [hcons] at h ⊢
    by_cases hk : (ledVisits data1 data2 is (ledVisit data1 data2 s i)).led[k]? =
        (ledVisit data1 data2 s i).led[k]?
    · have hdraws := ledVisits_draws data1 data2 is (ledVisit data1 data2 s i)
      rw [hk] at h ⊢
      have hki : k = i.val := by
        by_contra hne
        exact h ((ledVisit_frame data1 data2 s i).2.2.2.2 k hne)
      subst hki
      have hl : i.val < s.led.length := by
        by_contra hl
        have hlen := (ledVisit_frame data1 data2 s i).2.2.2.1
        exact h (by rw [List.getElem?_eq_none (by omega), List.getElem?_eq_none (by omega)])
      rcases ledVisit_cases data1 data2 s i with ⟨-, e⟩ | ⟨-, hb, e⟩ | ⟨-, hb, e⟩ <;>
        rw [e] at h hdraws ⊢
      · exact absurd rfl h
      · exact .inl ⟨data2.toNat, hb, by simp [hl]⟩
      · refine .inr ⟨s.draws, le_rfl, ?_, by simp [hl]⟩
        rw [hdraws]
        simp [show ¬ data2.toNat ≤ 127 by omega]
        omega
    · have hd : s.draws ≤ (ledVisit data1 data2 s i).draws := by
        rcases ledVisit_cases data1 data2 s i with ⟨-, e⟩ | ⟨-, -, e⟩ | ⟨-, -, e⟩ <;> rw [e] <;> simp
      rcases ih _ k hk with h' | ⟨n, h1, h2, h3⟩
      · exact .inl h'
      · exact .inr ⟨n, hd.trans h1, h2, h3⟩

/-- The buffer a list of visits leaves depends only on the configuration, the buffer, and, for a value of
128 and more, the count of draws it starts from. -/
theorem ledVisits_led_congr (data1 data2 : Byte) : ∀ (is : List (Fin 5)) (s s' : State),
    s.cfg = s'.cfg → s.led = s'.led → (127 < data2.toNat → s.draws = s'.draws) →
      (ledVisits data1 data2 is s).led = (ledVisits data1 data2 is s').led := by
  intro is
  induction is with
  | nil => intro s s' _ h1 _; exact h1
  | cons i is ih =>
    intro s s' h0 h1 h2
    refine ih _ _ ?_ ?_ ?_
    · rw [(ledVisit_frame data1 data2 s i).1.cfg, (ledVisit_frame data1 data2 s' i).1.cfg, h0]
    · rcases ledVisit_cases data1 data2 s i with ⟨h, e⟩ | ⟨h, hb, e⟩ | ⟨h, hb, e⟩ <;>
        rcases ledVisit_cases data1 data2 s' i with ⟨h', e'⟩ | ⟨h', hb', e'⟩ | ⟨h', hb', e'⟩ <;>
        rw [e, e']
      all_goals first
        | exact h1
        | exact absurd (h0 ▸ h') h
        | exact absurd (h0 ▸ h) h'
        | exact absurd hb (by omega)
        | simp [h1, h2 hb]
        | simp [h1]
    · intro hb
      have hd := h2 hb
      unfold ledVisit green
      rw [h0]
      split
      · simp [show ¬ data2.toNat ≤ 127 by omega, hd]
      · exact hd

theorem ledMap_led (v : Voice3) (s : State) :
    (ledMap v s).led = (ledVisits v.data1 v.data2 [0, 1, 2, 3, 4] s).led := by
  unfold ledMap
  rw [ledScan_eq]
  split <;> simp

theorem ledMap_draws (v : Voice3) (s : State) :
    (ledMap v s).draws = (ledVisits v.data1 v.data2 [0, 1, 2, 3, 4] s).draws := by
  unfold ledMap
  rw [ledScan_eq]
  split <;> simp

theorem ledMap_led_congr (v : Voice3) (s s' : State) (h0 : s.cfg = s'.cfg) (h1 : s.led = s'.led)
    (h2 : 127 < v.data2.toNat → s.draws = s'.draws) : (ledMap v s).led = (ledMap v s').led := by
  rw [ledMap_led, ledMap_led]
  exact ledVisits_led_congr _ _ _ s s' h0 h1 h2

/-- What any `RX` touches. -/
theorem rxResult_frame (r : DecodeResult) (s : State) :
    RxFrame s (rxResult r s) ∧ (rxResult r s).report = some r ∧
      (rxResult r s).led.length = s.led.length ∧ ∀ k, 5 ≤ k → (rxResult r s).led[k]? = s.led[k]? := by
  cases r with
  | empty => exact ⟨.withReport s _, rfl, rfl, fun _ _ => rfl⟩
  | ignored reason cin => exact ⟨.withReport s _, rfl, rfl, fun _ _ => rfl⟩
  | voice3 v =>
    obtain ⟨f, -, hl, hk⟩ := ledMap_frame v s
    refine ⟨f.trans (.withReport _ _), rfl, ?_, fun k h => ?_⟩
    · rwa [rxResult, State.withReport_led]
    · rw [rxResult, State.withReport_led]
      exact hk k h

/-- Every instruction that is not `TICK` or a TX row runs to `rxResult` of its class. -/
def rxClass : Instr → Option DecodeResult
  | .rxEmpty _ _ _ => some .empty
  | .rxCin0 _ => some (.ignored .reserved 0x0#4)
  | .rxCin1 _ => some (.ignored .reserved 0x1#4)
  | .rxCin2 _ => some (.ignored .twoByte 0x2#4)
  | .rxCin3 b => some (.voice3 (voice3Of 0x3#4 b))
  | .rxCin4 _ => some (.ignored .sysEx 0x4#4)
  | .rxCin5 _ => some (.ignored .sysEx 0x5#4)
  | .rxCin6 _ => some (.ignored .sysEx 0x6#4)
  | .rxCin7 _ => some (.ignored .sysEx 0x7#4)
  | .rxCin8 b => some (.voice3 (voice3Of 0x8#4 b))
  | .rxCin9 b => some (.voice3 (voice3Of 0x9#4 b))
  | .rxCinA b => some (.voice3 (voice3Of 0xA#4 b))
  | .rxCinB b => some (.voice3 (voice3Of 0xB#4 b))
  | .rxCinC _ => some (.ignored .twoByte 0xC#4)
  | .rxCinD _ => some (.ignored .twoByte 0xD#4)
  | .rxCinE b => some (.voice3 (voice3Of 0xE#4 b))
  | .rxCinF _ => some (.ignored .singleByte 0xF#4)
  | .rxPoll p => some (decodeResult p)
  | .txNoteOn _ _ _ => none
  | .txNoteOff _ _ _ => none
  | .txCc _ _ _ => none
  | .tick _ => none

theorem exec_of_rxClass {i : Instr} {r : DecodeResult} (h : rxClass i = some r) (s : State) :
    exec i s = .next (rxResult r s) := by
  cases i <;> simp only [rxClass, Option.some.injEq, reduceCtorEq] at h <;> subst h <;> rfl

theorem nibble_cases : ∀ k : Nibble, k = 0x0#4 ∨ k = 0x1#4 ∨ k = 0x2#4 ∨ k = 0x3#4 ∨ k = 0x4#4 ∨
    k = 0x5#4 ∨ k = 0x6#4 ∨ k = 0x7#4 ∨ k = 0x8#4 ∨ k = 0x9#4 ∨ k = 0xA#4 ∨ k = 0xB#4 ∨ k = 0xC#4 ∨
    k = 0xD#4 ∨ k = 0xE#4 ∨ k = 0xF#4 := by
  decide

/-- The class of the row a packet decodes to is `DECODE` of the packet: the two forms of R130 agree. -/
theorem rxClass_decodeRx (p : Packet) : rxClass (decodeRx p) = some (decodeResult (some p)) := by
  obtain ⟨hd, st, d1, d2⟩ := p
  by_cases h : hd = 0x00#8
  · subst h
    rfl
  · have hn : hd.toNat ≠ 0 := fun e => h (BitVec.eq_of_toNat_eq (by simpa using e))
    have h16 : hd.toNat % 16 = (loNibble hd).toNat := (loNibble_toNat hd).symm
    unfold decodeRx decodeResult
    simp only [h, hn, h16, if_false]
    generalize Packet.body ⟨hd, st, d1, d2⟩ = b
    simp only [Packet.cin]
    rcases nibble_cases (loNibble hd) with h | h | h | h | h | h | h | h | h | h | h | h | h | h | h | h <;>
      simp [h, rxClass]

/-- The event of a TX row. -/
def txEvent : Instr → Option MidiEvent
  | .txNoteOn ch a b => some (.noteOn ch a b)
  | .txNoteOff ch a b => some (.noteOff ch a b)
  | .txCc ch a b => some (.controlChange ch a b)
  | .rxEmpty _ _ _ => none
  | .rxCin0 _ => none
  | .rxCin1 _ => none
  | .rxCin2 _ => none
  | .rxCin3 _ => none
  | .rxCin4 _ => none
  | .rxCin5 _ => none
  | .rxCin6 _ => none
  | .rxCin7 _ => none
  | .rxCin8 _ => none
  | .rxCin9 _ => none
  | .rxCinA _ => none
  | .rxCinB _ => none
  | .rxCinC _ => none
  | .rxCinD _ => none
  | .rxCinE _ => none
  | .rxCinF _ => none
  | .tick _ => none
  | .rxPoll _ => none

theorem exec_of_txEvent {i : Instr} {e : MidiEvent} (h : txEvent i = some e) (s : State) :
    exec i s = s.returnEncoded (encEvent e) := by
  cases i <;> simp only [txEvent, Option.some.injEq, reduceCtorEq] at h <;> subst h <;> rfl

/-- The three kinds of instruction: a TX row, an RX, a tick. -/
theorem instr_cases (i : Instr) :
    (∃ e, txEvent i = some e) ∨ (∃ r, rxClass i = some r) ∨ ∃ inp, i = .tick inp := by
  cases i
  case tick inp => exact .inr (.inr ⟨inp, rfl⟩)
  case txNoteOn | txNoteOff | txCc => exact .inl ⟨_, rfl⟩
  all_goals exact .inr (.inl ⟨_, rfl⟩)

end Sys2Proof.Machine
end

