-- ==== Sys2Proof/Laws/PerInstr.lean ====
section
/-! SUPPORT. One lemma per constructor of Instr: the packet of a well-formed instruction decodes, in its
own direction, to that instruction. -/

namespace Sys2Proof.Laws.DecodesBack

open Sys2Proof

/-- Decoding what the encoder writes gives the instruction back, wherever it is well formed. -/
def Statement (i : Instr) : Prop :=
  ∀ c : Config, i.wellFormed c = true →
    ∀ d bs, encode i = some (d, bs) → decode d bs = .ok i

/-- Encoding goes through the packet. -/
theorem of_packet {i : Instr} {d : Direction} {p : Packet} (he : encodePacket i = some (d, p))
    (hd : decode d p.bytes = .ok i) (d' : Direction) (bs : List Byte)
    (h : encode i = some (d', bs)) : decode d' bs = .ok i := by
  simp only [encode, he, Option.map_some, Option.some.injEq, Prod.mk.injEq] at h
  obtain ⟨rfl, rfl⟩ := h
  exact hd

theorem txNoteOn (ch pitch vel : Nat) : Statement (.txNoteOn ch pitch vel) := by
  intro c hw
  obtain ⟨h0, h1, h2⟩ := (inEncodeDomain_iff _ _ _).1 hw
  exact of_packet rfl (by rw [decode_tx_bytes, decodeTx_noteOn _ _ _ h0 h1 h2])

theorem txNoteOff (ch pitch vel : Nat) : Statement (.txNoteOff ch pitch vel) := by
  intro c hw
  obtain ⟨h0, h1, h2⟩ := (inEncodeDomain_iff _ _ _).1 hw
  exact of_packet rfl (by rw [decode_tx_bytes, decodeTx_noteOff _ _ _ h0 h1 h2])

theorem txCc (ch ctrl val : Nat) : Statement (.txCc ch ctrl val) := by
  intro c hw
  obtain ⟨h0, h1, h2⟩ := (inEncodeDomain_iff _ _ _).1 hw
  exact of_packet rfl (by rw [decode_tx_bytes, decodeTx_cc _ _ _ h0 h1 h2])

theorem rxEmpty (status data1 data2 : Byte) : Statement (.rxEmpty status data1 data2) :=
  fun _ _ => of_packet rfl rfl

theorem rxCin0 (b : RxBody) : Statement (.rxCin0 b) := by
  intro c hw
  have hc : b.cable ≠ 0x0#4 := by simpa [Instr.wellFormed] using hw
  exact of_packet rfl (by simp [decodeRx, rxPacket_header_eq_zero, hc])

theorem rxCin1 (b : RxBody) : Statement (.rxCin1 b) :=
  fun _ _ => of_packet rfl (by simp [decodeRx, rxPacket_header_eq_zero])

theorem rxCin2 (b : RxBody) : Statement (.rxCin2 b) :=
  fun _ _ => of_packet rfl (by simp [decodeRx, rxPacket_header_eq_zero])

theorem rxCin3 (b : RxBody) : Statement (.rxCin3 b) :=
  fun _ _ => of_packet rfl (by simp [decodeRx, rxPacket_header_eq_zero])

theorem rxCin4 (b : RxBody) : Statement (.rxCin4 b) :=
  fun _ _ => of_packet rfl (by simp [decodeRx, rxPacket_header_eq_zero])

theorem rxCin5 (b : RxBody) : Statement (.rxCin5 b) :=
  fun _ _ => of_packet rfl (by simp [decodeRx, rxPacket_header_eq_zero])

theorem rxCin6 (b : RxBody) : Statement (.rxCin6 b) :=
  fun _ _ => of_packet rfl (by simp [decodeRx, rxPacket_header_eq_zero])

theorem rxCin7 (b : RxBody) : Statement (.rxCin7 b) :=
  fun _ _ => of_packet rfl (by simp [decodeRx, rxPacket_header_eq_zero])

theorem rxCin8 (b : RxBody) : Statement (.rxCin8 b) :=
  fun _ _ => of_packet rfl (by simp [decodeRx, rxPacket_header_eq_zero])

theorem rxCin9 (b : RxBody) : Statement (.rxCin9 b) :=
  fun _ _ => of_packet rfl (by simp [decodeRx, rxPacket_header_eq_zero])

theorem rxCinA (b : RxBody) : Statement (.rxCinA b) :=
  fun _ _ => of_packet rfl (by simp [decodeRx, rxPacket_header_eq_zero])

theorem rxCinB (b : RxBody) : Statement (.rxCinB b) :=
  fun _ _ => of_packet rfl (by simp [decodeRx, rxPacket_header_eq_zero])

theorem rxCinC (b : RxBody) : Statement (.rxCinC b) :=
  fun _ _ => of_packet rfl (by simp [decodeRx, rxPacket_header_eq_zero])

theorem rxCinD (b : RxBody) : Statement (.rxCinD b) :=
  fun _ _ => of_packet rfl (by simp [decodeRx, rxPacket_header_eq_zero])

theorem rxCinE (b : RxBody) : Statement (.rxCinE b) :=
  fun _ _ => of_packet rfl (by simp [decodeRx, rxPacket_header_eq_zero])

theorem rxCinF (b : RxBody) : Statement (.rxCinF b) :=
  fun _ _ => of_packet rfl (by simp [decodeRx, rxPacket_header_eq_zero])

theorem tick (inp : Snapshot) : Statement (.tick inp) :=
  fun _ _ _ _ h => nomatch h

theorem rxPoll (p : Option Packet) : Statement (.rxPoll p) :=
  fun _ _ _ _ h => nomatch h

end Sys2Proof.Laws.DecodesBack
end

