-- ==== Sys2Proof/Laws/Tracker.lean ====
section
/-! SUPPORT. The Quantizer, the control steps and `TICK`: their frame, and their closed form. -/

namespace Sys2Proof.Machine

open Sys2Proof

/-! ### The Quantizer -/

/-- The significance test in natural-number form (R91). -/
theorem isSignificant_eq (c : Config) (v last : Nat) :
    isSignificant c v last = movedBeyond c v last := by
  rw [Bool.eq_iff_iff]
  simp only [isSignificant, movedBeyond, decide_eq_true_eq, Bool.or_eq_true]
  omega

/-- A sample in range converts to a 7-bit value (R92). -/
theorem toSevenBit_le (c : Config) (h : 7 ≤ c.R) (v : Nat) (hv : v < 2 ^ c.R) :
    toSevenBit c v ≤ 127 := by
  rw [c.two_pow_R h] at hv
  exact Nat.le_of_lt_succ (Nat.div_lt_of_lt_mul (by rwa [Nat.mul_comm] at hv))

theorem sliderSample_lt {c : Config} {inp : Snapshot} (h : inp.inRange c = true) (i : Fin 5) :
    inp.sliderSample i < 2 ^ c.R := by
  obtain ⟨h0, h1⟩ := ((Snapshot.inRange_iff c inp).1 h).1 i
  unfold Snapshot.sliderSample
  zify
  rwa [Int.toNat_of_nonneg h0]

theorem knobSample_lt {c : Config} {inp : Snapshot} (h : inp.inRange c = true) (i : Fin 4) :
    inp.knobSample i < 2 ^ c.R := by
  obtain ⟨h0, h1⟩ := ((Snapshot.inRange_iff c inp).1 h).2 i
  unfold Snapshot.knobSample
  zify
  rwa [Int.toNat_of_nonneg h0]

/-! ### The frame of a tick, for every configuration -/

/-- What no control step touches, and that it only appends to `tx`. -/
structure TickFrame (s t : State) : Prop where
  cfg : t.cfg = s.cfg
  led : t.led = s.led
  flushes : t.flushes = s.flushes
  report : t.report = s.report
  encoded : t.encoded = s.encoded
  draws : t.draws = s.draws
  pending : t.pending = s.pending
  tx : s.tx <+: t.tx

theorem TickFrame.refl (s : State) : TickFrame s s := ⟨rfl, rfl, rfl, rfl, rfl, rfl, rfl, List.prefix_rfl⟩

theorem TickFrame.trans {s t u : State} (h : TickFrame s t) (k : TickFrame t u) : TickFrame s u :=
  ⟨k.cfg.trans h.cfg, k.led.trans h.led, k.flushes.trans h.flushes, k.report.trans h.report,
    k.encoded.trans h.encoded, k.draws.trans h.draws, k.pending.trans h.pending, h.tx.trans k.tx⟩

theorem TickFrame.send (s : State) (p : Packet) : TickFrame s (s.send p) :=
  ⟨rfl, rfl, rfl, rfl, rfl, rfl, rfl, List.prefix_append _ _⟩

/-- Everything one control step can have done: nothing, or one packet of an encoder and one write of the
control's own register. -/
theorem controlStep_cases {inp : Snapshot} {s t : State} {k : Control}
    (h : controlStep inp s k = .next t) :
    t = s ∨ ∃ e p, encEvent e = .ok p ∧
      ((∃ row i b, t = (s.send p).setButtonLast row i b) ∨
        (∃ i, t = (s.send p).setSliderLast i (inp.sliderSample i)) ∨
        ∃ i, t = (s.send p).setKnobLast i (inp.knobSample i)) := by
  have button : ∀ row i b, buttonStep row i b s = .next t →
      t = s ∨ ∃ e p, encEvent e = .ok p ∧ ∃ row i b, t = (s.send p).setButtonLast row i b := by
    intro row i b h
    unfold buttonStep at h
    split at h
    · obtain ⟨u, hu, hv⟩ := andThen_eq_next.1 h
      obtain ⟨p, hp, rfl⟩ := emit_eq_next.1 hu
      obtain rfl : (s.send p).setButtonLast row i b = t := by simpa using hv
      unfold encButton at hp
      split at hp
      · exact .inr ⟨.noteOn _ _ _, p, hp, row, i, b, rfl⟩
      · exact .inr ⟨.noteOff _ _ _, p, hp, row, i, b, rfl⟩
    · exact .inl (by simpa [eq_comm] using h)
  cases k with
  | upper i =>
    rcases button _ _ _ h with h | ⟨e, p, he, h⟩
    exacts [.inl h, .inr ⟨e, p, he, .inl h⟩]
  | lower i =>
    rcases button _ _ _ h with h | ⟨e, p, he, h⟩
    exacts [.inl h, .inr ⟨e, p, he, .inl h⟩]
  | slider i =>
    simp only [controlStep, sliderStep] at h
    split at h
    · obtain ⟨u, hu, hv⟩ := andThen_eq_next.1 h
      obtain ⟨p, hp, rfl⟩ := emit_eq_next.1 hu
      exact .inr ⟨.controlChange _ _ _, p, hp, .inr (.inl ⟨i, by simpa [eq_comm] using hv⟩)⟩
    · exact .inl (by simpa [eq_comm] using h)
  | knob i =>
    simp only [controlStep, knobStep] at h
    split at h
    · obtain ⟨u, hu, hv⟩ := andThen_eq_next.1 h
      obtain ⟨p, hp, rfl⟩ := emit_eq_next.1 hu
      exact .inr ⟨.controlChange _ _ _, p, hp, .inr (.inr ⟨i, by simpa [eq_comm] using hv⟩)⟩
    · exact .inl (by simpa [eq_comm] using h)

theorem controlStep_frame {inp : Snapshot} {s t : State} {k : Control}
    (h : controlStep inp s k = .next t) : TickFrame s t := by
  rcases controlStep_cases h with rfl | ⟨e, p, -, ⟨row, i, b, rfl⟩ | ⟨i, rfl⟩ | ⟨i, rfl⟩⟩
  · exact .refl _
  · cases row <;> exact ⟨rfl, rfl, rfl, rfl, rfl, rfl, rfl, List.prefix_append _ _⟩
  · exact ⟨rfl, rfl, rfl, rfl, rfl, rfl, rfl, List.prefix_append _ _⟩
  · exact ⟨rfl, rfl, rfl, rfl, rfl, rfl, rfl, List.prefix_append _ _⟩

/-- A property that every control step keeps is kept by a list of them. -/
theorem controlSteps_induct {inp : Snapshot} {P : State → Prop}
    (hP : ∀ s t k, controlStep inp s k = .next t → P s → P t) :
    ∀ (ks : List Control) {s t : State}, controlSteps inp ks s = .next t → P s → P t := by
  intro ks
  induction ks with
  | nil =>
    intro s t h hs
    obtain rfl : s = t := by simpa [controlSteps] using h
    exact hs
  | cons k ks ih =>
    intro s t h hs
    obtain ⟨u, hu, hv⟩ := andThen_eq_next.1 h
    exact ih hv (hP s u k hu hs)

theorem controlSteps_frame {inp : Snapshot} {ks : List Control} {s t : State}
    (h : controlSteps inp ks s = .next t) : TickFrame s t :=
  controlSteps_induct (P := TickFrame s) (fun _ _ _ hk hu => hu.trans (controlStep_frame hk)) ks h
    (.refl s)

/-- A tick that reaches a state had its readings in range and ran the steps of the visiting order. -/
theorem execTick_eq_next {inp : Snapshot} {s t : State} :
    execTick inp s = .next t ↔
      inp.inRange s.cfg = true ∧ controlSteps inp (visitOrder s.cfg.scanOrder) s = .next t := by
  unfold execTick
  split <;> simp [*]

/-! ### The closed form of one control step, under a configuration within the contract -/

/-- What one control's step makes of a state. -/
def State.afterControl (s : State) (inp : Snapshot) (k : Control) : State :=
  let t := { s with tx := s.tx ++ controlPackets inp s k }
  match k with
  | .upper i => { t with upperLast := s.upperLast.set i (inp.upper.get i) }
  | .lower i => { t with lowerLast := s.lowerLast.set i (inp.lower.get i) }
  | .slider i =>
    t.setSliderLast i (newBaseline s.cfg (inp.sliderSample i) (s.sliderLast.get i))
  | .knob i => t.setKnobLast i (newBaseline s.cfg (inp.knobSample i) (s.knobLast.get i))

theorem Five.set_get {α : Type} (v : Five α) (i : Fin 5) : v.set i (v.get i) = v :=
  Five.ext_get fun j => by
    rw [Five.get_set]
    split <;> simp_all

theorem Four.set_get {α : Type} (v : Four α) (i : Fin 4) : v.set i (v.get i) = v :=
  Four.ext_get fun j => by
    rw [Four.get_set]
    split <;> simp_all

/-- A button's packet in the encode table's bytes. -/
theorem encButton_eq {id : Nat} (hid : id ≤ 127) {b last : Bit} (hb : b ≠ last) :
    ∃ p, encButton id b = .ok p ∧ buttonPackets id b last = [p] := by
  unfold encButton buttonPackets
  rw [if_neg hb]
  split
  · exact ⟨_, encNoteOn_eq_ok.2 ⟨⟨by decide, hid, by decide⟩, rfl⟩, rfl⟩
  · exact ⟨_, encNoteOff_eq_ok.2 ⟨⟨by decide, hid, by decide⟩, rfl⟩, rfl⟩

theorem controlStep_eq {inp : Snapshot} {s : State} (hc : s.cfg.admissible = true)
    (hi : inp.inRange s.cfg = true) (k : Control) :
    controlStep inp s k = .next (s.afterControl inp k) := by
  obtain ⟨hR, hu, hl, -⟩ := s.cfg.admissible_iff.1 hc
  cases k with
  | upper i =>
    by_cases hb : inp.upper.get i = s.upperLast.get i
    · simp [controlStep, buttonStep, buttonChanged, State.buttonLast, State.afterControl,
        controlPackets, buttonPackets, hb, Five.set_get]
    · obtain ⟨p, hp, hq⟩ := encButton_eq (hu i) hb
      simp [controlStep, buttonStep, buttonChanged, State.buttonLast, buttonIds,
        State.afterControl, controlPackets, State.setButtonLast, State.send, hb, hp, hq]
  | lower i =>
    by_cases hb : inp.lower.get i = s.lowerLast.get i
    · simp [controlStep, buttonStep, buttonChanged, State.buttonLast, State.afterControl,
        controlPackets, buttonPackets, hb, Five.set_get]
    · obtain ⟨p, hp, hq⟩ := encButton_eq (hl i) hb
      simp [controlStep, buttonStep, buttonChanged, State.buttonLast, buttonIds,
        State.afterControl, controlPackets, State.setButtonLast, State.send, hb, hp, hq]
  | slider i =>
    have hv := toSevenBit_le s.cfg hR _ (sliderSample_lt hi i)
    have he := encCc_eq_ok (ch := Config.ch) (a := i.val + 1)
      (b := sliderValue s.cfg (inp.sliderSample i)) (p := _) |>.2
        ⟨⟨by decide, by omega, by unfold sliderValue; omega⟩, rfl⟩
    by_cases hm : movedBeyond s.cfg (inp.sliderSample i) (s.sliderLast.get i) = true
    · simp only [controlStep, sliderStep, isSignificant_eq, hm, if_true, he, emit_ok, andThen_next,
        State.afterControl, newBaseline]
      simp only [Snapshot.sliderSample] at hm
      simp [controlPackets, sliderPackets, hm, State.send, State.setSliderLast]
      rfl
    · simp only [Bool.not_eq_true] at hm
      simp only [controlStep, sliderStep, isSignificant_eq, hm, State.afterControl, newBaseline]
      simp only [Snapshot.sliderSample] at hm
      simp [controlPackets, sliderPackets, hm, State.setSliderLast, Five.set_get]
  | knob i =>
    have hv := toSevenBit_le s.cfg hR _ (knobSample_lt hi i)
    have he := encCc_eq_ok (ch := Config.ch) (a := i.val + 6)
      (b := knobValue s.cfg (inp.knobSample i)) (p := _) |>.2
        ⟨⟨by decide, by omega, by unfold knobValue; omega⟩, rfl⟩
    by_cases hm : movedBeyond s.cfg (inp.knobSample i) (s.knobLast.get i) = true
    · simp only [controlStep, knobStep, isSignificant_eq, hm, if_true, he, emit_ok, andThen_next,
        State.afterControl, newBaseline]
      simp only [Snapshot.knobSample] at hm
      simp [controlPackets, knobPackets, hm, State.send, State.setKnobLast]
      rfl
    · simp only [Bool.not_eq_true] at hm
      simp only [controlStep, knobStep, isSignificant_eq, hm, State.afterControl, newBaseline]
      simp only [Snapshot.knobSample] at hm
      simp [controlPackets, knobPackets, hm, State.setKnobLast, Four.set_get]

@[simp] theorem afterControl_cfg (s : State) (inp : Snapshot) (k : Control) :
    (s.afterControl inp k).cfg = s.cfg := by
  cases k <;> rfl

@[simp] theorem afterControl_tx (s : State) (inp : Snapshot) (k : Control) :
    (s.afterControl inp k).tx = s.tx ++ controlPackets inp s k := by
  cases k <;> rfl

/-- A list of control steps in closed form: one after another. -/
theorem controlSteps_eq {inp : Snapshot} : ∀ (ks : List Control) {s : State},
    s.cfg.admissible = true → inp.inRange s.cfg = true →
      controlSteps inp ks s = .next (ks.foldl (fun t k => t.afterControl inp k) s) := by
  intro ks
  induction ks with
  | nil => intro s _ _; rfl
  | cons k ks ih =>
    intro s hc hi
    rw [controlSteps, controlStep_eq hc hi, andThen_next, ih (by simpa using hc) (by simpa using hi)]
    rfl

/-- A control's packets depend on its own register alone (R106 (b)). -/
theorem controlPackets_afterControl {inp : Snapshot} {s : State} {k l : Control} (h : k ≠ l) :
    controlPackets inp (s.afterControl inp k) l = controlPackets inp s l := by
  cases k <;> cases l <;>
    simp_all [State.afterControl, controlPackets, Five.get_set, Four.get_set, eq_comm]

/-- What a list of distinct controls appends to `tx`: each one's packets, in the list's order. -/
theorem foldl_afterControl_tx {inp : Snapshot} : ∀ (ks : List Control), ks.Nodup → ∀ (s : State),
    (ks.foldl (fun t k => t.afterControl inp k) s).tx =
      s.tx ++ ks.flatMap (controlPackets inp s) := by
  intro ks
  induction ks with
  | nil => intro _ s; simp
  | cons k ks ih =>
    intro hn s
    obtain ⟨hk, hn⟩ := List.nodup_cons.1 hn
    have hsame : ks.flatMap (controlPackets inp (s.afterControl inp k)) =
        ks.flatMap (controlPackets inp s) :=
      List.flatMap_congr fun l hl => controlPackets_afterControl fun h => hk (h ▸ hl)
    simp [ih hn, hsame]

/-- What a list of distinct controls leaves in the registers: each named control's own update, once, and
nothing else. -/
theorem foldl_afterControl_registers {inp : Snapshot} : ∀ (ks : List Control), ks.Nodup → ∀ (s : State),
    let t := ks.foldl (fun t k => t.afterControl inp k) s
    (∀ i, t.upperLast.get i = if .upper i ∈ ks then inp.upper.get i else s.upperLast.get i) ∧
    (∀ i, t.lowerLast.get i = if .lower i ∈ ks then inp.lower.get i else s.lowerLast.get i) ∧
    (∀ i, t.sliderLast.get i = if .slider i ∈ ks then
      newBaseline s.cfg (inp.sliderSample i) (s.sliderLast.get i) else s.sliderLast.get i) ∧
    (∀ i, t.knobLast.get i = if .knob i ∈ ks then
      newBaseline s.cfg (inp.knobSample i) (s.knobLast.get i) else s.knobLast.get i) ∧
    t.cfg = s.cfg ∧ t.led = s.led ∧ t.flushes = s.flushes ∧ t.report = s.report ∧
      t.encoded = s.encoded ∧ t.draws = s.draws ∧ t.pending = s.pending := by
  intro ks
  induction ks with
  | nil => intro _ s; simp
  | cons k ks ih =>
    intro hn s
    obtain ⟨hk, hn⟩ := List.nodup_cons.1 hn
    obtain ⟨h1, h2, h3, h4, h5, h6, h7, h8, h9, h10, h11⟩ := ih hn (s.afterControl inp k)
    simp only [List.foldl_cons]
    refine ⟨fun i => ?_, fun i => ?_, fun i => ?_, fun i => ?_, ?_, ?_, ?_, ?_, ?_, ?_, ?_⟩
    · rw [h1]
      cases k <;> simp [State.afterControl, Five.get_set] at *
      rename_i j
      by_cases e : i = j <;> simp [e]
    · rw [h2]
      cases k <;> simp [State.afterControl, Five.get_set] at *
      rename_i j
      by_cases e : i = j <;> simp [e]
    · rw [h3]
      cases k <;> simp [State.afterControl, Five.get_set] at *
      rename_i j
      by_cases e : i = j <;> simp [e, hk]
    · rw [h4]
      cases k <;> simp [State.afterControl, Four.get_set] at *
      rename_i j
      by_cases e : i = j <;> simp [e, hk]
    · rw [h5]
      cases k <;> rfl
    · rw [h6]
      cases k <;> rfl
    · rw [h7]
      cases k <;> rfl
    · rw [h8]
      cases k <;> rfl
    · rw [h9]
      cases k <;> rfl
    · rw [h10]
      cases k <;> rfl
    · rw [h11]
      cases k <;> rfl

/-- `VISIT_ORDER` is the sequence R101 describes. -/
theorem visitOrder_eq_scanSequence (o : ScanOrder) : visitOrder o = scanSequence o := by
  cases o <;> decide

/-- Both visiting orders visit each control once. -/
theorem visitOrder_nodup (o : ScanOrder) : (visitOrder o).Nodup := by
  cases o <;> decide

/-- Both visiting orders visit every control (R101). -/
theorem mem_visitOrder (o : ScanOrder) (k : Control) : k ∈ visitOrder o := by
  cases o <;> cases k <;> rename_i i <;> revert i <;> decide

end Sys2Proof.Machine
end

