-- ==== Sys2Proof/Tests/Slice0.lean ====
section
/-! SUPPORT. The model's own tests: the WellFormed smoke tests, words written out from the spec's
encodings, single steps whose results are those of spec/95_test_vectors.md or of the rules' own examples,
and the witnesses of the obligations' hypotheses. -/

namespace Sys2Proof.Tests

open Sys2Proof Sys2Proof.Machine Sys2Proof.Claims

/-- The state a result reaches. -/
def stateOf : Result → Option State
  | .next s => some s
  | .fault _ => none
  | .refused _ => none

/-- The reason a result is refused for. -/
def refusalOf : Result → Option Refusal
  | .next _ => none
  | .fault _ => none
  | .refused r => some r

/-- `EXCFG` (95_test_vectors.md). -/
abbrev excfg : Config := Config.reference

/-- The snapshot that reads what the registers of a state hold. -/
def still (s : State) : Snapshot where
  upper := s.upperLast
  lower := s.lowerLast
  slider := .ofFn fun i => s.sliderLast.get i
  knob := .ofFn fun i => s.knobLast.get i

/-- The start of T-TRK-14: every button bit 1, every baseline 1000. -/
def held : State :=
  { State.reset with
    upperLast := .const 1
    lowerLast := .const 1
    sliderLast := .const 1000
    knobLast := .const 1000 }

/-- A configuration at the edges of the contract: R = 7, identifiers 0 and 127, two equal upper
identifiers, NLED = 6, `INTERLEAVED`. -/
def edge : Config :=
  { excfg with
    R := 7
    upperId := ⟨22, 22, 0, 127, 30⟩
    lowerId := ⟨127, 0, 27, 29, 31⟩
    scanOrder := .interleaved
    resetSliderLast := .const 127
    ledInit := List.replicate 6 ⟨1, 2, 3⟩ }

/-- A state with every kind of content, under EXCFG with six LEDs. -/
def busy : State :=
  { State.resetWith { excfg with ledInit := List.replicate 6 ⟨1, 2, 3⟩ } with
    upperLast := ⟨1, 0, 1, 0, 1⟩
    sliderLast := ⟨0, 4095, 1000, 2000, 32⟩
    knobLast := ⟨0, 4095, 2000, 33⟩
    led := [⟨0, 254, 0⟩, ⟨1, 2, 3⟩, ⟨1, 2, 3⟩, ⟨1, 2, 3⟩, ⟨1, 2, 3⟩, ⟨1, 2, 3⟩]
    tx := [⟨0x09, 0x9F, 0x7F, 0x7F⟩]
    flushes := [[⟨0, 254, 0⟩, ⟨1, 2, 3⟩, ⟨1, 2, 3⟩, ⟨1, 2, 3⟩, ⟨1, 2, 3⟩, ⟨1, 2, 3⟩]]
    report := some .empty
    encoded := some ⟨0x0B, 0xB0, 0x01, 0x3F⟩
    draws := 3 }

/-! ### WellFormed refuses an ill-formed term, check by check -/

theorem test_wellFormed_txNoteOn :
    (Instr.txNoteOn 16 0 0).wellFormed excfg = false ∧ (Instr.txNoteOn 0 128 0).wellFormed excfg = false ∧
      (Instr.txNoteOn 0 0 128).wellFormed excfg = false ∧
      (Instr.txNoteOn 15 127 127).wellFormed excfg = true := by
  decide

theorem test_wellFormed_txNoteOff :
    (Instr.txNoteOff 16 0 0).wellFormed excfg = false ∧
      (Instr.txNoteOff 0 128 0).wellFormed excfg = false ∧
      (Instr.txNoteOff 0 0 128).wellFormed excfg = false := by
  decide

theorem test_wellFormed_txCc :
    (Instr.txCc 16 0 0).wellFormed excfg = false ∧ (Instr.txCc 0 128 0).wellFormed excfg = false ∧
      (Instr.txCc 0 0 128).wellFormed excfg = false := by
  decide

theorem test_wellFormed_rxCin0 :
    (Instr.rxCin0 ⟨0, 0, 0, 0⟩).wellFormed excfg = false ∧
      (Instr.rxCin0 ⟨1, 0, 0, 0⟩).wellFormed excfg = true := by
  decide

theorem test_wellFormed_tick :
    (Instr.tick { still State.reset with slider := ⟨4096, 0, 0, 0, 0⟩ }).wellFormed excfg = false ∧
      (Instr.tick { still State.reset with slider := ⟨0, 0, 0, 0, -1⟩ }).wellFormed excfg = false ∧
      (Instr.tick { still State.reset with knob := ⟨4096, 0, 0, 0⟩ }).wellFormed excfg = false ∧
      (Instr.tick { still State.reset with knob := ⟨0, 0, 0, -1⟩ }).wellFormed excfg = false ∧
      (Instr.tick { still State.reset with knob := .const 4095 }).wellFormed excfg = true := by
  decide

theorem test_config_refused :
    configRefusal { excfg with R := 6 } = some .configR ∧
      configRefusal { excfg with upperId := ⟨128, 0, 0, 0, 0⟩ } = some .configId ∧
      configRefusal { excfg with lowerId := ⟨0, 0, 0, 0, 128⟩ } = some .configId ∧
      configRefusal { excfg with ledInit := List.replicate 4 ⟨0, 0, 0⟩ } = some .configNled ∧
      configRefusal edge = none := by
  decide

theorem test_config_reset_out_of_range :
    ({ excfg with resetSliderLast := .const 4096 } : Config).wf = false ∧
      ({ excfg with resetKnobLast := .const 4096 } : Config).wf = false ∧ edge.wf = true := by
  decide

/-! ### Words written out from the encodings, one for each constructor (T-ENC, T-DEC) -/

theorem test_decode_txNoteOn : decode .tx [0x09, 0x9F, 0x7F, 0x7F] = .ok (.txNoteOn 15 127 127) := by decide
theorem test_decode_txNoteOff : decode .tx [0x08, 0x83, 0x00, 0x00] = .ok (.txNoteOff 3 0 0) := by decide
theorem test_decode_txCc : decode .tx [0x0B, 0xB0, 0x01, 0x3F] = .ok (.txCc 0 1 63) := by decide
theorem test_decode_rxEmpty : decode .rx [0x00, 0x90, 0x3C, 0x64] = .ok (.rxEmpty 0x90 0x3C 0x64) := by
  decide
theorem test_decode_rxCin0 : decode .rx [0x10, 0x00, 0x00, 0x00] = .ok (.rxCin0 ⟨1, 0, 0, 0⟩) := by decide
theorem test_decode_rxCin1 : decode .rx [0x01, 0x90, 0x3C, 0x64] = .ok (.rxCin1 ⟨0, 0x90, 0x3C, 0x64⟩) := by
  decide
theorem test_decode_rxCin2 : decode .rx [0x02, 0xF3, 0x05, 0x00] = .ok (.rxCin2 ⟨0, 0xF3, 0x05, 0⟩) := by
  decide
theorem test_decode_rxCin3 : decode .rx [0x03, 0xF2, 0x10, 0x20] = .ok (.rxCin3 ⟨0, 0xF2, 0x10, 0x20⟩) := by
  decide
theorem test_decode_rxCin4 : decode .rx [0x04, 0xF0, 0x7E, 0x7F] = .ok (.rxCin4 ⟨0, 0xF0, 0x7E, 0x7F⟩) := by
  decide
theorem test_decode_rxCin5 : decode .rx [0x05, 0xF7, 0x00, 0x00] = .ok (.rxCin5 ⟨0, 0xF7, 0, 0⟩) := by decide
theorem test_decode_rxCin6 : decode .rx [0x06, 0x01, 0xF7, 0x00] = .ok (.rxCin6 ⟨0, 0x01, 0xF7, 0⟩) := by
  decide
theorem test_decode_rxCin7 : decode .rx [0x07, 0x01, 0x02, 0xF7] = .ok (.rxCin7 ⟨0, 0x01, 0x02, 0xF7⟩) := by
  decide
theorem test_decode_rxCin8 : decode .rx [0x08, 0x80, 0x3C, 0x00] = .ok (.rxCin8 ⟨0, 0x80, 0x3C, 0⟩) := by
  decide
theorem test_decode_rxCin9 : decode .rx [0xF9, 0x90, 0x3C, 0x64] = .ok (.rxCin9 ⟨15, 0x90, 0x3C, 0x64⟩) := by
  decide
theorem test_decode_rxCinA : decode .rx [0x0A, 0xA0, 0x3C, 0x40] = .ok (.rxCinA ⟨0, 0xA0, 0x3C, 0x40⟩) := by
  decide
theorem test_decode_rxCinB : decode .rx [0x0B, 0xB0, 0x07, 0x64] = .ok (.rxCinB ⟨0, 0xB0, 0x07, 0x64⟩) := by
  decide
theorem test_decode_rxCinC : decode .rx [0x0C, 0xC0, 0x05, 0x00] = .ok (.rxCinC ⟨0, 0xC0, 0x05, 0⟩) := by
  decide
theorem test_decode_rxCinD : decode .rx [0x0D, 0xD0, 0x40, 0x00] = .ok (.rxCinD ⟨0, 0xD0, 0x40, 0⟩) := by
  decide
theorem test_decode_rxCinE : decode .rx [0x0E, 0xE0, 0x00, 0x40] = .ok (.rxCinE ⟨0, 0xE0, 0, 0x40⟩) := by
  decide
theorem test_decode_rxCinF : decode .rx [0x0F, 0xF8, 0x00, 0x00] = .ok (.rxCinF ⟨0, 0xF8, 0, 0⟩) := by decide

/-- R54, R66: bytes that are no packet of the direction are rejected by name. -/
theorem test_decode_rejects :
    decode .rx [0x09, 0x90, 0x3C] = .error (.notFourBytes 3) ∧
      decode .tx [0x09, 0x80, 0x3C, 0x64] = .error .notATxPacket ∧
      decode .tx [0x19, 0x90, 0x3C, 0x64] = .error .notATxPacket ∧
      decode .tx [0x09, 0x90, 0x80, 0x64] = .error .notATxPacket := by
  decide

/-- The word view and the fields of T-ENC-01 (R51, R65). -/
theorem test_word_view :
    Packet.toWord ⟨0x09, 0x90, 0x3C, 0x64⟩ = 0x09903C64#32 ∧
      Packet.cin ⟨0x19, 0x93, 0, 0⟩ = 0x9 ∧ Packet.cable ⟨0x19, 0x93, 0, 0⟩ = 0x1 ∧
      Packet.kind ⟨0x19, 0x93, 0, 0⟩ = 0x9 ∧ Packet.chan ⟨0x19, 0x93, 0, 0⟩ = 0x3 := by
  decide

/-- The four bytes of a table word, header first (R51). -/
theorem test_table_bytes : tableBytes 32 0x0BBF7F00 = [0x0B, 0xBF, 0x7F, 0x00] := by decide

/-! ### One operation -/

/-- T-ENC-01, which writes no state (R120), and T-ENC-10. -/
theorem test_txNoteOn :
    (stateOf (exec (.txNoteOn 0 60 100) State.reset)).map (fun t => (t.encoded, t.tx)) =
        some (some ⟨0x09, 0x90, 0x3C, 0x64⟩, []) ∧
      refusalOf (exec (.txNoteOn 16 0 0) State.reset) = some .encodeOutOfDomain := by
  decide

/-- T-ENC-04. -/
theorem test_txNoteOff :
    (stateOf (exec (.txNoteOff 3 0 0) State.reset)).map State.encoded =
      some (some ⟨0x08, 0x83, 0x00, 0x00⟩) := by
  decide

/-- T-ENC-08 and T-ENC-11. -/
theorem test_txCc :
    (stateOf (exec (.txCc 15 127 0) State.reset)).map State.encoded =
        some (some ⟨0x0B, 0xBF, 0x7F, 0x00⟩) ∧
      refusalOf (exec (.txCc 0 128 0) State.reset) = some .encodeOutOfDomain := by
  decide

/-- T-DEC-03, T-DEC-20 and T-DEC-19. -/
theorem test_rxPoll_classes :
    decodeResult (some ⟨0x00, 0x90, 0x3C, 0x64⟩) = .empty ∧
      decodeResult (some ⟨0x19, 0x90, 0x3C, 0x64⟩) = .voice3 ⟨9, 1, 0x90, 0, 0x3C, 0x64⟩ ∧
      decodeResult (some ⟨0x0F, 0xF8, 0x00, 0x00⟩) = .ignored .singleByte 0xF := by
  decide

/-- T-DEC-21, T-DEC-22, T-DEC-23 and T-DEC-14. -/
theorem test_toEvent :
    (decodeResult (some ⟨0x09, 0x80, 0x3C, 0x64⟩)).toEvent = some (.noteOn 0 60 100) ∧
      (decodeResult (some ⟨0x09, 0x9F, 0x3C, 0x64⟩)).toEvent = some (.noteOn 15 60 100) ∧
      (decodeResult (some ⟨0x09, 0x90, 0xBC, 0x64⟩)).toEvent = none ∧
      (decodeResult (some ⟨0x0A, 0xA0, 0x3C, 0x40⟩)).toEvent = none := by
  decide

/-- T-LED-01: LED 2 is (0,200,0), flushed once. -/
theorem test_led_note_on :
    (stateOf (exec (.rxCin9 ⟨0, 0x90, 0x1A, 0x64⟩) State.reset)).map (fun t => (t.led, t.flushes)) =
      some ([⟨0, 0, 0⟩, ⟨0, 0, 0⟩, ⟨0, 200, 0⟩, ⟨0, 0, 0⟩, ⟨0, 0, 0⟩],
        [[⟨0, 0, 0⟩, ⟨0, 0, 0⟩, ⟨0, 200, 0⟩, ⟨0, 0, 0⟩, ⟨0, 0, 0⟩]]) := by
  decide

/-- T-LED-03: a Control Change lights LED 0 at the maximum. -/
theorem test_led_control_change :
    (stateOf (exec (.rxCinB ⟨0, 0xB0, 0x16, 0x7F⟩) State.reset)).map (fun t => t.led[0]?) =
      some (some ⟨0, 254, 0⟩) := by
  decide

/-- T-LED-07: a Note Off of value 0 flushes though the buffer does not change. -/
theorem test_led_flush_without_change :
    (stateOf (exec (.rxCin8 ⟨0, 0x80, 0x1A, 0x00⟩) State.reset)).map (fun t => (t.led, t.flushes)) =
      some (State.reset.led, [State.reset.led]) := by
  decide

/-- T-LED-09. -/
theorem test_led_cin3 :
    (stateOf (exec (.rxCin3 ⟨0, 0xF2, 0x1C, 0x10⟩) State.reset)).map (fun t => t.led[3]?) =
      some (some ⟨0, 32, 0⟩) := by
  decide

/-- The example of R143. -/
theorem test_led_cinA :
    (stateOf (exec (.rxCinA ⟨0, 0xA0, 0x1C, 0x40⟩) State.reset)).map (fun t => t.led[3]?) =
      some (some ⟨0, 128, 0⟩) := by
  decide

/-- T-LED-10. -/
theorem test_led_cinE :
    (stateOf (exec (.rxCinE ⟨0, 0xE0, 0x18, 0x7F⟩) State.reset)).map (fun t => t.led[1]?) =
      some (some ⟨0, 254, 0⟩) := by
  decide

/-- T-LED-12: two equal upper identifiers, two entries, one flush. -/
theorem test_led_duplicate_ids :
    (stateOf (exec (.rxCin9 ⟨0, 0x90, 0x16, 0x0A⟩)
      (State.resetWith { excfg with upperId := ⟨22, 22, 26, 28, 30⟩ }))).map
        (fun t => (t.led.take 3, t.flushes.length)) =
      some ([⟨0, 20, 0⟩, ⟨0, 20, 0⟩, ⟨0, 0, 0⟩], 1) := by
  decide

/-- T-LED-05: the free value, and the flush still happens. -/
theorem test_led_any_rgb :
    (stateOf (exec (.rxCin9 ⟨0, 0x90, 0x1A, 0x80⟩) State.reset)).map
        (fun t => (t.led[2]?, t.flushes.length, t.draws)) =
      some (some (Config.anyRgb 0), 1, 1) := rfl

/-- T-LED-04 and T-LED-11: a lower identifier, and one above 127, match nothing. -/
theorem test_led_no_match :
    (stateOf (exec (.rxCin9 ⟨0, 0x90, 0x17, 0x64⟩) State.reset)).map (fun t => (t.led, t.flushes)) =
        some (State.reset.led, []) ∧
      (stateOf (exec (.rxCin9 ⟨0, 0x90, 0x9A, 0x64⟩) State.reset)).map (fun t => (t.led, t.flushes)) =
        some (State.reset.led, []) := by
  decide

/-- T-Q-02, T-Q-03, T-Q-08, T-Q-11, T-Q-21, T-Q-22, T-Q-25 and T-Q-30. -/
theorem test_quantizer :
    toSevenBit excfg 31 = 0 ∧ toSevenBit excfg 32 = 1 ∧ toSevenBit excfg 2050 = 64 ∧
      toSevenBit excfg 4095 = 127 ∧ isSignificant excfg 2032 2000 = false ∧
      isSignificant excfg 2033 2000 = true ∧ isSignificant excfg 1967 2000 = true ∧
      isSignificant excfg 31 32 = false := by
  decide

/-- T-TRK-11: the packets of the first analog tick, in order. -/
theorem test_tick_analog :
    (stateOf (exec (.tick ⟨.const 0, .const 0, ⟨32, 33, 0, 4095, 2048⟩, ⟨0, 20, 33, 4095⟩⟩)
      State.reset)).map (fun t => (t.tx, t.sliderLast, t.knobLast)) =
      some ([⟨0x0B, 0xB0, 0x02, 0x7E⟩, ⟨0x0B, 0xB0, 0x04, 0x00⟩, ⟨0x0B, 0xB0, 0x05, 0x3F⟩,
        ⟨0x0B, 0xB0, 0x08, 0x01⟩, ⟨0x0B, 0xB0, 0x09, 0x7F⟩],
        ⟨0, 33, 0, 4095, 2048⟩, ⟨0, 0, 33, 4095⟩) := by
  decide

/-- T-TRK-14: the packets follow `SCAN_ORDER`. -/
theorem test_tick_scan_order :
    (stateOf (exec (.tick ⟨⟨0, 1, 1, 1, 1⟩, ⟨1, 0, 1, 1, 1⟩, ⟨2000, 1000, 1000, 1000, 1000⟩,
        ⟨3000, 1000, 1000, 1000⟩⟩) held)).map State.tx =
        some [⟨0x09, 0x90, 0x16, 0x7F⟩, ⟨0x09, 0x90, 0x19, 0x7F⟩, ⟨0x0B, 0xB0, 0x01, 0x41⟩,
          ⟨0x0B, 0xB0, 0x06, 0x5D⟩] ∧
      (stateOf (exec (.tick ⟨⟨0, 1, 1, 1, 1⟩, ⟨1, 0, 1, 1, 1⟩, ⟨2000, 1000, 1000, 1000, 1000⟩,
        ⟨3000, 1000, 1000, 1000⟩⟩) (withScanOrder held .interleaved))).map State.tx =
        some [⟨0x09, 0x90, 0x16, 0x7F⟩, ⟨0x0B, 0xB0, 0x01, 0x41⟩, ⟨0x09, 0x90, 0x19, 0x7F⟩,
          ⟨0x0B, 0xB0, 0x06, 0x5D⟩] := by
  decide

/-! ### One step -/

/-- T-TRK-17: a tick out of range is refused. -/
theorem test_step_refuses_out_of_range :
    refusalOf (step { State.reset with
      pending := [.tick { still State.reset with slider := ⟨4096, 0, 0, 0, 0⟩ }] }) =
      some .analogOutOfRange := by
  decide

/-- A TX word (T-ENC-05) and an RX word (the example of R143) run as the first operation after reset. -/
theorem test_step_runs_table_words :
    (stateOf (step (State.reset.withFetchWord 32 0x08801700))).map State.encoded =
        some (some ⟨0x08, 0x80, 0x17, 0x00⟩) ∧
      (stateOf (step (State.reset.withFetchWord 32 0x0AA01C40))).map (fun t => t.led[3]?) =
        some (some ⟨0, 128, 0⟩) := by
  decide

/-- R190: `RESET` empties both logs and puts the registers back. -/
theorem test_step_reset :
    stateOf (step { busy with pending := [.reset] }) =
      some { State.resetWith busy.cfg with draws := 3 } := by
  decide

/-! ### Witnesses: concrete states and operands that meet the hypotheses of each obligation -/

theorem witness_ResetPutsEveryRegisterAtItsResetValue :
    (busy.cfg.admissible = true ∧ ({ busy with pending := [.reset, .rx none] } : State).pending =
      .reset :: [.rx none]) := by
  decide

theorem witness_ResetStateHasTheInvariants : excfg.wf = true ∧ edge.wf = true := by decide

theorem witness_DecodeUndoesEncode :
    (Instr.txNoteOn 15 127 127).wellFormed edge = true ∧ (Instr.txNoteOff 0 0 0).wellFormed edge = true ∧
      (Instr.txCc 15 0 127).wellFormed edge = true ∧
      (Instr.rxCin0 ⟨15, 255, 255, 255⟩).wellFormed edge = true ∧
      (Instr.tick { still State.reset with knob := .const 127 }).wellFormed edge = true ∧
      (Instr.rxPoll none).wellFormed edge = true := by
  decide

theorem witness_EncodeUndoesDecode :
    decode .tx [0x0B, 0xBF, 0x7F, 0x00] = .ok (.txCc 15 127 0) ∧
      decode .rx [0xFF, 0xFF, 0xFF, 0xFF] = .ok (.rxCinF ⟨15, 255, 255, 255⟩) := by
  decide

theorem witness_TxRowsGiveTheEncodedPacket :
    (15 ≤ 15 ∧ 127 ≤ 127 ∧ 127 ≤ 127) ∧ (15 < 16 ∨ 127 < 0 ∨ 127 < 0) ∧ (15 < 0 ∨ 127 < 128 ∨ 127 < 0) ∧
      (15 < 0 ∨ 127 < 0 ∨ 127 < 128) := by
  decide

theorem witness_EncodedHeaderIsItsCategory :
    encEvent (.noteOn 15 127 127) = .ok ⟨0x09, 0x9F, 0x7F, 0x7F⟩ ∧
      encEvent (.noteOff 0 0 0) = .ok ⟨0x08, 0x80, 0x00, 0x00⟩ ∧
      encEvent (.controlChange 15 0 127) = .ok ⟨0x0B, 0xBF, 0x00, 0x7F⟩ ∧
      (stateOf (exec (.tick (still held)) State.reset)).isSome = true := by
  decide

theorem witness_EncodersAreJointlyInjective :
    encEvent (.noteOn 3 60 0) = .ok ⟨0x09, 0x93, 0x3C, 0x00⟩ ∧
      encEvent (.noteOff 3 60 0) = .ok ⟨0x08, 0x83, 0x3C, 0x00⟩ := by
  decide

theorem witness_EncodedEventsDecodeBack : (15 : Nat) ≤ 15 ∧ (127 : Nat) ≤ 127 := by decide

/-- One packet for each clause of the class table. -/
theorem witness_RxClassifiesByHeader :
    Packet.header ⟨0x00, 0x90, 0x3C, 0x64⟩ = 0x00#8 ∧
      (Packet.header ⟨0xF0, 0, 0, 0⟩ ≠ 0x00#8 ∧ Packet.cin ⟨0xF0, 0, 0, 0⟩ = 0x0#4) ∧
      Packet.cin ⟨0x01, 0, 0, 0⟩ = 0x1#4 ∧ Packet.cin ⟨0xFD, 0, 0, 0⟩ = 0xD#4 ∧
      Packet.cin ⟨0x07, 0, 0, 0⟩ = 0x7#4 ∧ Packet.cin ⟨0xFF, 0, 0, 0⟩ = 0xF#4 ∧
      Packet.cin ⟨0x0E, 0, 0, 0⟩ = 0xE#4 ∧
      decodeResult (some ⟨0x0E, 0, 0, 0⟩) = .voice3 ⟨0xE, 0, 0, 0, 0, 0⟩ := by
  decide

theorem witness_EmptyAndReservedRowsHaveNoEffect :
    Packet.toWord ⟨0x00, 0xFF, 0xFF, 0xFF⟩ &&& 0xFF000000#32 = 0#32 ∧
      (Packet.toWord ⟨0xF0, 0xFF, 0, 0⟩ &&& 0x0F000000#32 = 0#32 ∧
        Packet.header ⟨0xF0, 0xFF, 0, 0⟩ ≠ 0x00#8) ∧
      Packet.toWord ⟨0xF1, 0xFF, 0, 0⟩ &&& 0x0F000000#32 = 0x01000000#32 := by
  decide

theorem witness_ShortMessageRowsHaveNoEffect :
    Packet.toWord ⟨0xF2, 0xFF, 0, 0⟩ &&& 0x0F000000#32 = 0x02000000#32 ∧
      Packet.toWord ⟨0x0C, 0xC0, 0x1A, 0⟩ &&& 0x0F000000#32 = 0x0C000000#32 ∧
      Packet.toWord ⟨0x1D, 0, 0, 0⟩ &&& 0x0F000000#32 = 0x0D000000#32 ∧
      Packet.toWord ⟨0xFF, 0, 0, 0⟩ &&& 0x0F000000#32 = 0x0F000000#32 := by
  decide

theorem witness_SysExRowsHaveNoEffect :
    Packet.toWord ⟨0xF4, 0xFF, 0, 0⟩ &&& 0x0F000000#32 = 0x04000000#32 ∧
      Packet.toWord ⟨0x05, 0xF7, 0, 0⟩ &&& 0x0F000000#32 = 0x05000000#32 ∧
      Packet.toWord ⟨0x16, 0, 0, 0⟩ &&& 0x0F000000#32 = 0x06000000#32 ∧
      Packet.toWord ⟨0x07, 0, 0, 0xF7⟩ &&& 0x0F000000#32 = 0x07000000#32 := by
  decide

theorem witness_VoiceRowsRunTheLedMapper :
    Packet.toWord ⟨0xF3, 0xFF, 0, 0⟩ &&& 0x0F000000#32 = 0x03000000#32 ∧
      Packet.toWord ⟨0x08, 0x80, 0, 0⟩ &&& 0x0F000000#32 = 0x08000000#32 ∧
      Packet.toWord ⟨0x19, 0, 0, 0⟩ &&& 0x0F000000#32 = 0x09000000#32 ∧
      Packet.toWord ⟨0x0A, 0, 0, 0xF7⟩ &&& 0x0F000000#32 = 0x0A000000#32 ∧
      Packet.toWord ⟨0x0B, 0, 0, 0xF7⟩ &&& 0x0F000000#32 = 0x0B000000#32 ∧
      Packet.toWord ⟨0xFE, 0, 0, 0xF7⟩ &&& 0x0F000000#32 = 0x0E000000#32 ∧
      (0x7F#8).toNat ≤ 127 := by
  decide

/-- R151 at both sides of 127, in data1 and in data2, and a CIN that is none of 9, 8 and B. -/
theorem witness_VoiceRowsRunTheLedMapper_view :
    Machine.toEvent (voice 0x9 ⟨0, 0x90, 127, 127⟩) = some (.noteOn 0 127 127) ∧
      127 < (128#8).toNat ∧ Machine.toEvent (voice 0x9 ⟨0, 0x90, 128, 127⟩) = none ∧
      Machine.toEvent (voice 0xB ⟨0, 0xB0, 127, 128⟩) = none ∧
      (0xE#4 ≠ 0x9#4 ∧ 0xE#4 ≠ 0x8#4 ∧ 0xE#4 ≠ 0xB#4) := by
  decide

theorem witness_VoiceRow (b : RxBody) :
    VoiceRow 0x3#4 b (.rxCin3 b) ∧ VoiceRow 0x8#4 b (.rxCin8 b) ∧ VoiceRow 0x9#4 b (.rxCin9 b) ∧
      VoiceRow 0xA#4 b (.rxCinA b) ∧ VoiceRow 0xB#4 b (.rxCinB b) ∧ VoiceRow 0xE#4 b (.rxCinE b) :=
  ⟨.cin3 b, .cin8 b, .cin9 b, .cinA b, .cinB b, .cinE b⟩

/-- Two packets of one CIN and one pair of data bytes: with one header, with two headers that are not 0,
and one of each. -/
theorem witness_StatusAndCableDoNotSteerTheEffect :
    (Packet.cin ⟨0x09, 0x90, 26, 100⟩ = Packet.cin ⟨0x09, 0x80, 26, 100⟩) ∧
      (Packet.cin ⟨0x09, 0x90, 26, 100⟩ = Packet.cin ⟨0x19, 0x80, 26, 100⟩ ∧
        Packet.header ⟨0x19, 0x80, 26, 100⟩ ≠ 0x00#8) ∧
      Packet.cin ⟨0x00, 0x90, 26, 100⟩ = Packet.cin ⟨0xF0, 0x90, 26, 100⟩ := by
  decide

/-- A packet with data2 = 128 from states that agree on the count of draws, and one with data2 = 127 from
states that do not. -/
theorem witness_RxDependsOnPacketAndLedsOnly :
    IsLargeVoice (.rxPoll (some ⟨0x09, 0x90, 26, 128⟩)) ∧
      (held.cfg = State.reset.cfg ∧ held.led = State.reset.led ∧ held.draws = State.reset.draws ∧
        held ≠ State.reset) ∧
      IsRx (.rxCin9 ⟨0, 0x90, 26, 127⟩) ∧ ¬ IsLargeVoice (.rxCin9 ⟨0, 0x90, 26, 127⟩) ∧
      ({ held with draws := 7 } : State).draws ≠ State.reset.draws := by
  refine ⟨⟨_, ⟨0, 0x90, 26, 128⟩, _, .cin9 _, by decide, .inr rfl⟩, by decide, .cin9 _, ?_, by decide⟩
  rintro ⟨cin, b, row, hv, hb, h | h⟩
  · cases hv <;> cases h
    exact absurd hb (by decide)
  · cases h

/-- Under `edge`, data1 = 22 matches entries 0 and 1 and no other, with data2 at both sides of 128. -/
theorem witness_VoiceRowsWriteEveryMatchingLed :
    VoiceRow 0x9#4 ⟨0, 0, 22, 127⟩ (.rxCin9 ⟨0, 0, 22, 127⟩) ∧
      VoiceRow 0xE#4 ⟨0, 0, 22, 128⟩ (.rxCinE ⟨0, 0, 22, 128⟩) ∧
      5 ≤ (State.resetWith excfg).led.length ∧ 5 ≤ (State.resetWith edge).led.length ∧
      (edge.upperId.get 0 = (22#8).toNat ∧ edge.upperId.get 1 = (22#8).toNat) ∧
      (∀ j : Fin 5, j.val = 2 → edge.upperId.get j ≠ (22#8).toNat) ∧
      (∀ j : Fin 5, j.val = 5 → edge.upperId.get j ≠ (22#8).toNat) ∧
      (127#8).toNat ≤ 127 ∧ ¬ (128#8).toNat ≤ 127 :=
  ⟨.cin9 _, .cinE _, by decide⟩

/-- The two draws of a double match, numbered in scan order. -/
theorem witness_LargeValuesDrawAFreshColourForEachWrite :
    VoiceRow 0xB#4 ⟨0, 0, 22, 128⟩ (.rxCinB ⟨0, 0, 22, 128⟩) ∧ 5 ≤ (State.resetWith edge).led.length ∧
      127 < (128#8).toNat ∧ (127#8).toNat ≤ 127 ∧ edge.upperId.get 1 = (22#8).toNat ∧
      matchesBefore edge 22 0 = 0 ∧ matchesBefore edge 22 1 = 1 ∧ matchesBefore edge 22 5 = 2 :=
  ⟨.cinB _, by decide⟩

theorem witness_UnmatchedVoiceIsDropped :
    VoiceRow 0x8#4 ⟨0, 0, 23, 100⟩ (.rxCin8 ⟨0, 0, 23, 100⟩) ∧
      ∀ j, State.reset.cfg.upperId.get j ≠ (23#8).toNat :=
  ⟨.cin8 _, by decide⟩

theorem witness_OnlyMatchingVoiceChangesLeds :
    (stateOf (exec (.rxPoll (some ⟨0x0A, 0xA0, 0x1C, 0x40⟩)) busy)).map
        (fun t => (t.led ≠ busy.led, t.flushes ≠ busy.flushes)) = some (True, True) ∧
      (stateOf (exec (.rxCin1 ⟨0, 0, 0x1C, 0x40⟩) busy)).isSome = true := by
  refine ⟨?_, by decide⟩
  simp only [exec, execRxPoll, stateOf, Option.map_some, Option.some.injEq, Prod.mk.injEq, eq_iff_iff,
    iff_true]
  decide

theorem witness_RepeatedVoiceLeavesTheLeds :
    VoiceRow 0x9#4 ⟨0, 0, 30, 127⟩ (.rxCin9 ⟨0, 0, 30, 127⟩) ∧ (127#8).toNat ≤ 127 ∧
      (stateOf (exec (.rxCin9 ⟨0, 0, 30, 127⟩) busy)).isSome = true ∧
      busy.cfg.upperId.get 4 = (30#8).toNat :=
  ⟨.cin9 _, by decide⟩

theorem witness_ConversionFactorDividesAndThresholds : excfg.R = 12 := by decide

theorem witness_ConversionIsTheTopSevenBits :
    7 ≤ edge.R ∧ 127 < 2 ^ edge.R ∧ 4095 < 2 ^ excfg.R ∧ 31 ≤ 32 := by
  decide

theorem witness_SignificantChangeMovesSevenBitValue :
    7 ≤ excfg.R ∧ isSignificant excfg 33 0 = true ∧ isSignificant edge 2 0 = true ∧ excfg.R = 12 := by
  decide

theorem witness_ButtonStepSendsOnChange :
    (buttonIds edge .upper).get 3 ≤ 127 ∧ (0#1 = ((State.resetWith edge).buttonLast .upper).get 3) ∧
      1#1 ≠ ((State.resetWith edge).buttonLast .lower).get 0 := by
  decide

/-- Differences of exactly `CF` and of one more, on a slider and a knob, at the top of the range. -/
theorem witness_AnalogStepsSendBeyondTheThreshold :
    7 ≤ busy.cfg.R ∧ 4095 < 2 ^ busy.cfg.R ∧
      ((busy.cfg.cf : Int) < |(4095 : Int) - busy.sliderLast.get 0|) ∧
      (|(4063 : Int) - busy.sliderLast.get 1| ≤ busy.cfg.cf) ∧
      ((busy.cfg.cf : Int) < |(4062 : Int) - busy.knobLast.get 1|) ∧
      |(4063 : Int) - busy.knobLast.get 1| ≤ busy.cfg.cf := by
  decide

theorem witness_TickReachesItsClosedForm :
    busy.cfg.admissible = true ∧ { still busy with slider := .const 4095 }.inRange busy.cfg = true ∧
      { still busy with slider := .const 4096 }.inRange busy.cfg = false ∧
      { still busy with knob := .const (-1) }.inRange busy.cfg = false := by
  decide

theorem witness_TickFrameIsItsOwnRegisters :
    (stateOf (exec (.tick { still busy with slider := .const 4095 }) busy)).isSome = true := by
  decide

theorem witness_TickRefusedExactlyOutOfRange :
    busy.cfg.admissible = true ∧
      refusalOf (exec (.tick { still busy with knob := ⟨0, 0, 0, 4096⟩ }) busy) =
        some .analogOutOfRange ∧
      refusalOf (exec (.tick { still busy with slider := ⟨-1, 0, 0, 0, 0⟩ }) busy) =
        some .analogOutOfRange := by
  decide

theorem witness_ScanOrderOnlyReordersPackets :
    held.cfg.admissible = true ∧ { still held with knob := .const 4095 }.inRange held.cfg = true := by
  decide

theorem witness_TickPacketsAreThoseOfTheTracker :
    edge.admissible = true ∧
      (stateOf (exec (.tick ⟨.const 1, .const 1, .const 0, .const 127⟩) (State.resetWith edge))).map
        (fun t => t.tx.length) = some 19 := by
  decide

/-- Readings exactly `CF` above and below the baselines. -/
theorem witness_Quiet :
    Quiet held { still held with slider := ⟨1032, 968, 1000, 1032, 968⟩, knob := .const 968 } := by
  unfold Quiet
  decide

theorem witness_QuietTicksChangeNothing :
    held.cfg.admissible = true ∧
      (∀ inp ∈ [still held, { still held with knob := .const 968 }], Quiet held inp) ∧
      ({ held with pending := [.tick (still held), .tick { still held with knob := .const 968 }, .reset] }
        : State).pending =
        [still held, { still held with knob := .const 968 }].map .tick ++ [.reset] := by
  unfold Quiet
  decide

theorem witness_RepeatedTickIsSilent :
    held.cfg.admissible = true ∧
      (stateOf (exec (.tick (still State.reset)) held)).map (fun t => t.tx.length) = some 19 := by
  decide

theorem witness_FirstTickReleasesEveryButton :
    excfg.wf = true ∧ excfg.resetUpperLast = .const 0#1 ∧ excfg.resetLowerLast = .const 0#1 ∧
      excfg.resetSliderLast = .const 0 ∧ excfg.resetKnobLast = .const 0 := by
  decide

theorem witness_OnlyTickWritesLastRegisters :
    (stateOf (exec (.rxCin9 ⟨0, 0, 22, 255⟩) busy)).isSome = true ∧
      (stateOf (exec (.txCc 0 1 2) busy)).isSome = true ∧ (∀ inp, Instr.txCc 0 1 2 ≠ .tick inp) ∧
      IsRx (.rxCin9 ⟨0, 0, 22, 255⟩) :=
  ⟨rfl, rfl, fun _ => by simp, .cin9 _⟩

theorem witness_LogsOnlyGrow :
    (stateOf (exec (.rxCinA ⟨0, 0, 22, 1⟩) busy)).map (fun t => t.flushes.length) = some 2 ∧
      (stateOf (exec (.tick (still State.reset)) held)).map (fun t => t.tx.length) = some 19 ∧
      IsRx (.rxCinA ⟨0, 0, 22, 1⟩) ∧
      (stateOf (exec (.txCc 0 1 2) busy)).map State.tx = some busy.tx ∧
      (∀ inp, Instr.txCc 0 1 2 ≠ .tick inp) ∧ ¬ IsRx (.txCc 0 1 2) :=
  ⟨rfl, by decide, .cinA _, by decide, fun _ => by simp, fun h => by cases h⟩

theorem witness_ConfigurationNeverChanges :
    (stateOf (step { busy with pending := [.reset] })).isSome = true ∧
      (stateOf (step { busy with pending := [.tick (still held)] })).isSome = true := by
  decide

theorem witness_StepRunsTheDecodedInstruction :
    busy.cfg.admissible = true ∧
      ({ busy with pending := [.wire .tx [0x09, 0x9F, 0x7F, 0x7F], .reset] } : State).pending =
        .wire .tx [0x09, 0x9F, 0x7F, 0x7F] :: [.reset] ∧
      decode .tx [0x09, 0x9F, 0x7F, 0x7F] = .ok (.txNoteOn 15 127 127) ∧
      (Instr.txNoteOn 15 127 127).wellFormed busy.cfg = true ∧
      ({ busy with pending := [.tick (still busy)] } : State).pending = .tick (still busy) :: [] ∧
      ({ busy with pending := [.rx none] } : State).pending = .rx none :: [] ∧ busy.pending = [] := by
  decide

theorem witness_RequestsInContractComplete :
    edge.admissible = true ∧ Request.inContract edge .reset = true ∧
      Request.inContract edge (.rx none) = true ∧
      Request.inContract edge (.tick ⟨.const 1, .const 1, .const 127, .const 0⟩) = true ∧
      decode .tx [0x0B, 0xBF, 0x7F, 0x00] = .ok (.txCc 15 127 0) ∧
      Request.inContract edge (.wire .tx [0x0B, 0xBF, 0x7F, 0x00]) = false := by
  decide

theorem witness_RefusalsNameABrokenContract :
    refusalOf (step { State.resetWith { excfg with R := 6 } with pending := [.reset] }) = some .configR ∧
      refusalOf (step { State.resetWith { excfg with lowerId := .const 128 } with pending := [.reset] }) =
        some .configId ∧
      refusalOf (step { State.resetWith { excfg with ledInit := [] } with pending := [.rx none] }) =
        some .configNled ∧
      refusalOf (step { busy with pending := [.tick { still busy with knob := .const (-1) }] }) =
        some .analogOutOfRange ∧
      refusalOf (step { busy with pending := [.wire .rx []] }) = some (.undecodable (.notFourBytes 0)) := by
  decide

theorem witness_StepKeepsTheInvariants :
    ({ busy with pending := [.tick (still held)] } : State).Inv ∧
      (stateOf (step { busy with pending := [.tick (still held)] })).isSome = true :=
  ⟨⟨by decide, by decide, by decide, by decide, by decide, by decide⟩, by decide⟩

theorem witness_StepKeepsTheLedLaws :
    ({ busy with pending := [.rx (some ⟨0x0A, 0xA0, 0x1C, 0x40⟩)] } : State).LedInv ∧
      (stateOf (step { busy with pending := [.rx (some ⟨0x0A, 0xA0, 0x1C, 0x40⟩)] })).isSome = true := by
  refine ⟨⟨by decide, fun i hi => ?_⟩, by decide⟩
  match i, hi with
  | 5, _ => rfl
  | n + 6, _ => rfl

theorem witness_TickAndRxCommute : IsRx (.rxPoll none) ∧ IsRx (.rxCinF ⟨0, 0xF8, 0, 0⟩) :=
  ⟨.poll _, .cinF _⟩

/-- The state of `held` under EXCFG, with upper button 4 newly pressed and every analog control at the
edge of its threshold. -/
theorem witness_EchoedPressLightsItsLed :
    held.Inv ∧ { still held with upper := ⟨1, 1, 1, 1, 0⟩, knob := .const 968 }.inRange held.cfg = true ∧
      (∀ j, held.cfg.upperId.get j = held.cfg.upperId.get 4 → j = 4) ∧ held.upperLast.get 4 = 1#1 ∧
      Quiet held { still held with upper := (⟨1, 1, 1, 1, 0⟩ : Five Bit).set 4 1#1, knob := .const 968 } ∧
      ({ still held with upper := ⟨1, 1, 1, 1, 0⟩, knob := .const 968 } : Snapshot).upper.get 4 = 0#1 := by
  refine ⟨⟨by decide, by decide, by decide, by decide, by decide, by decide⟩, by decide, by decide,
    by decide, ?_, by decide⟩
  unfold Quiet
  decide

theorem witness_EncodersFollowTheEncodeTable :
    (15 ≤ 15 ∧ 127 ≤ 127 ∧ 127 ≤ 127) ∧ (15 < 16 ∨ 127 < 0 ∨ 127 < 0) ∧ (15 < 0 ∨ 127 < 128 ∨ 127 < 0) ∧
      (15 < 0 ∨ 127 < 0 ∨ 127 < 128) := by
  decide

/-- A double match of data2 = 128 draws twice and changes entry 0; `RESET` after it does not put the count
back. -/
theorem witness_FreeValuesAreNeverDrawnTwice :
    (stateOf (step { State.resetWith edge with
      pending := [.rx (some ⟨0x09, 0x90, 22, 128⟩)] })).map (fun t => (t.draws, t.led[0]?)) =
        some (2, some (Config.anyRgb 0)) ∧
      (stateOf (step { State.resetWith edge with
        pending := [.rx (some ⟨0x09, 0x90, 22, 127⟩)] })).map (fun t => t.led[0]? ≠ edge.ledInit[0]?) =
        some True ∧
      ({ busy with pending := [.reset] } : State).pending = .reset :: [] ∧
      (stateOf (step { busy with pending := [.reset] })).map State.draws = some 3 := by
  refine ⟨rfl, ?_, rfl, rfl⟩
  refine congrArg some (eq_true ?_)
  decide

/-- A queue with a request in contract, a breach, and a `RESET` after it: no breach among the first two
requests, one among the first three. -/
theorem witness_RefusedRunsStayRefused :
    (busy.cfg.admissible = true ∧
      ([.reset, .tick { still busy with slider := .const 4095 },
        .tick { still busy with slider := .const 4096 }, .reset].take 2).findSome? (breach busy.cfg) = none ∧
      ([.reset, .tick { still busy with slider := .const 4095 },
        .tick { still busy with slider := .const 4096 }, .reset].take 3).findSome? (breach busy.cfg) =
          some .analogOutOfRange ∧
      refusalOf (Host.Core.run Sys2Proof.core 3 { busy with
        pending := [.reset, .wire .rx [0x09], .reset] }) = some (.undecodable (.notFourBytes 1))) ∧
      (edge.admissible = true ∧ ({ excfg with R := 6 } : Config).admissible = false ∧
        ({ State.resetWith { excfg with R := 6 } with pending := [.reset, .reset] } : State).pending ≠ []) := by
  decide

end Sys2Proof.Tests
end

section
/-! PROOFS. The conversion factor and its two uses (spec/00_scope.md R7, 40_quantizer.md R90, R91). -/

namespace Sys2Proof

/-- The factor of this hardware's 12-bit converter (R7). -/
theorem Config.cf_of_R_eq_twelve (c : Config) (h : c.R = 12) : c.cf = 32 := by
  simp [Config.cf, h]

namespace Machine

/-- One of the two truncated differences is 0, the other is the distance of the samples (R91). -/
theorem isSignificant_iff_cf_lt_sub (c : Config) (a b : Nat) :
    isSignificant c a b = true ↔ c.cf < a - b ∨ c.cf < b - a := by
  simp only [isSignificant_eq, movedBeyond, Bool.or_eq_true, decide_eq_true_eq,
    Nat.lt_sub_iff_add_lt']

/-- Settles O22: the factor and the conversion are R7 and R90 as defined, and the threshold is the
significance test in truncated differences. -/
theorem conversionFactorDividesAndThresholds :
    Obligations.ConversionFactorDividesAndThresholds := fun c =>
  ⟨rfl, c.cf_of_R_eq_twelve, fun _ => rfl, isSignificant_iff_cf_lt_sub c⟩

end Machine

end Sys2Proof
end

section
/-! PROOFS. The block's state and its two logs (spec/10_state.md R25, R30, R31, R43): `RESET`, the frame
of the last registers, and what no operation reads. -/

namespace Sys2Proof.Machine

open Sys2Proof.Claims

/-! ### RESET -/

/-- Under a configuration within the contract the oldest request is taken. -/
theorem fetch_of_pending_cons {s : State} {q : Request} {rest : List Request}
    (hc : s.cfg.admissible = true) (hp : s.pending = q :: rest) :
    fetch s = (q.action, { s with pending := rest }) := by
  simp [fetch, hp, (configRefusal_eq_none _).2 hc]

/-- A `RESET` request within the contract runs the assignments of R190. -/
theorem step_of_pending_reset {s : State} {rest : List Request}
    (hc : s.cfg.admissible = true) (hp : s.pending = .reset :: rest) :
    step s = .next ({ s with pending := rest } : State).applyReset := by
  simp [step, fetch_of_pending_cons hc hp, Request.action]

theorem applyReset_atReset (s : State) : AtReset s.cfg s.applyReset :=
  ⟨rfl, rfl, rfl, rfl, rfl, rfl, rfl⟩

theorem resetWith_atReset (c : Config) : AtReset c (State.resetWith c) :=
  ⟨rfl, rfl, rfl, rfl, rfl, rfl, rfl⟩

/-- Settles O1: the one step of a `RESET` request is `applyReset`, which is at reset. -/
theorem resetPutsEveryRegisterAtItsResetValue :
    Obligations.ResetPutsEveryRegisterAtItsResetValue :=
  ⟨fun s rest hc hp =>
    ⟨_, step_of_pending_reset hc hp, applyReset_atReset { s with pending := rest }, rfl⟩,
  resetWith_atReset⟩

/-! ### What an RX does not read -/

/-- The rows that run as an `RX` are those with a class. -/
theorem isRx_iff_rxClass (i : Instr) : IsRx i ↔ ∃ r, rxClass i = some r := by
  constructor
  · intro h
    cases h <;> exact ⟨_, rfl⟩
  · rintro ⟨r, h⟩
    cases i
    case txNoteOn | txNoteOff | txCc | tick => cases h
    all_goals constructor

/-- A change of the state in fields no `RX` reads or writes: it keeps the configuration and commutes
with every operation the LED mapper and the decoder are built from. -/
structure RxOblivious (f : State → State) : Prop where
  cfg : ∀ s, (f s).cfg = s.cfg
  drawRgb : ∀ s, (f s).drawRgb = (s.drawRgb.1, f s.drawRgb.2)
  setPixel : ∀ s i c, (f s).setPixel i c = f (s.setPixel i c)
  flush : ∀ s, (f s).flush = f s.flush
  withReport : ∀ s r, (f s).withReport r = f (s.withReport r)

namespace RxOblivious

variable {f : State → State} (hf : RxOblivious f)

include hf

theorem ledVisit_comm (data1 data2 : Byte) (s : State) (i : Fin 5) :
    ledVisit data1 data2 (f s) i = f (ledVisit data1 data2 s i) := by
  unfold ledVisit green
  rw [hf.cfg, hf.drawRgb]
  by_cases hm : ledMatches s.cfg data1 i = true
  · by_cases hd : data2.toNat ≤ 127 <;> simp [hm, hd, hf.setPixel]
  · simp [hm]

theorem ledMap_comm (v : Voice3) (s : State) : ledMap v (f s) = f (ledMap v s) := by
  have hscan : ledScan v.data1 v.data2 (f s) = f (ledScan v.data1 v.data2 s) :=
    List.foldl_hom f (hf.ledVisit_comm v.data1 v.data2)
  unfold ledMap
  rw [hscan, hf.cfg]
  split
  · exact hf.flush _
  · rfl

theorem rxResult_comm (r : DecodeResult) (s : State) :
    rxResult r (f s) = f (rxResult r s) := by
  cases r with
  | empty => exact hf.withReport _ _
  | ignored reason cin => exact hf.withReport _ _
  | voice3 v => simp only [rxResult, hf.ledMap_comm, hf.withReport]

end RxOblivious

theorem rxOblivious_withLast (u l : Five Bit) (sl : Five Nat) (kn : Four Nat) :
    RxOblivious fun s => withLast s u l sl kn :=
  ⟨fun _ => rfl, fun _ => rfl, fun _ _ _ => rfl, fun _ => rfl, fun _ _ => rfl⟩

/-! ### Who writes the last registers -/

/-- A TX row that reaches a state has written its packet output only (R125). -/
theorem eq_withEncoded_of_txEvent {i : Instr} {e : MidiEvent} {s t : State}
    (hi : txEvent i = some e) (h : exec i s = .next t) : ∃ p, t = s.withEncoded p := by
  rw [exec_of_txEvent hi] at h
  obtain ⟨p, -, ht⟩ := returnEncoded_eq_next.1 h
  exact ⟨p, ht⟩

/-- A row with a class that reaches a state has run as the `RX` of that class. -/
theorem eq_rxResult_of_rxClass {i : Instr} {r : DecodeResult} {s t : State}
    (hi : rxClass i = some r) (h : exec i s = .next t) : t = rxResult r s := by
  rw [exec_of_rxClass hi] at h
  exact (Host.Outcome.next.inj h).symm

/-- Settles O36: a TX row writes its output only, an `RX` keeps the registers by its frame and commutes
with their replacement. -/
theorem onlyTickWritesLastRegisters : Obligations.OnlyTickWritesLastRegisters := by
  constructor
  · intro i s t h hi
    rcases instr_cases i with ⟨e, he⟩ | ⟨r, hr⟩ | ⟨inp, rfl⟩
    · obtain ⟨p, rfl⟩ := eq_withEncoded_of_txEvent he h
      exact ⟨rfl, rfl, rfl, rfl⟩
    · obtain rfl := eq_rxResult_of_rxClass hr h
      have hframe := (rxResult_frame r s).1
      exact ⟨hframe.upperLast, hframe.lowerLast, hframe.sliderLast, hframe.knobLast⟩
    · exact absurd rfl (hi inp)
  · intro i s u l sl kn hi
    obtain ⟨r, hr⟩ := (isRx_iff_rxClass i).1 hi
    refine ⟨rxResult r s, exec_of_rxClass hr s, ?_⟩
    rw [exec_of_rxClass hr, (rxOblivious_withLast u l sl kn).rxResult_comm]

/-! ### The two logs -/

/-- An `RX` leaves the flush log or appends the buffer it leaves (R31, R161). -/
theorem rxResult_flushes_cases (r : DecodeResult) (s : State) :
    (rxResult r s).flushes = s.flushes ∨
      (rxResult r s).flushes = s.flushes ++ [(rxResult r s).led] := by
  cases r with
  | empty => exact .inl rfl
  | ignored reason cin => exact .inl rfl
  | voice3 v =>
    have h := ledMap_flushes v s
    split at h
    · exact .inr h
    · exact .inl h

/-- The state with packets put before those already sent. -/
def State.withTxBefore (l : List Packet) (s : State) : State := { s with tx := l ++ s.tx }

@[simp] theorem State.withTxBefore_cfg (l : List Packet) (s : State) :
    (s.withTxBefore l).cfg = s.cfg := rfl

theorem rxOblivious_withTxBefore (l : List Packet) : RxOblivious (State.withTxBefore l) :=
  ⟨fun _ => rfl, fun _ => rfl, fun _ _ _ => rfl, fun _ => rfl, fun _ _ => rfl⟩

theorem State.withTxBefore_send (l : List Packet) (s : State) (p : Packet) :
    (s.withTxBefore l).send p = (s.send p).withTxBefore l := by
  simp [State.send, State.withTxBefore]

/-- Packets put before those already sent stay before what an operation leaves. -/
def Result.withTxBefore (l : List Packet) (r : Result) : Result :=
  andThen r fun t => .next (t.withTxBefore l)

/-- The shape of all three control steps: on a change, send a packet and write a register. Where the
write commutes with packets put before, so does the step. -/
theorem guardedSend_withTxBefore {w : State → State} {l : List Packet}
    (hw : ∀ t, w (t.withTxBefore l) = (w t).withTxBefore l) (changed : Bool)
    (e : Except Refusal Packet) (s : State) :
    (if changed then andThen ((s.withTxBefore l).emit e) fun t => .next (w t)
      else .next (s.withTxBefore l)) =
      Result.withTxBefore l (if changed then andThen (s.emit e) fun t => .next (w t) else .next s) := by
  cases changed with
  | false => rfl
  | true =>
    cases e with
    | ok p => simp [Result.withTxBefore, State.withTxBefore_send, hw]
    | error r => rfl

theorem controlStep_withTxBefore (l : List Packet) (inp : Snapshot) (s : State) (k : Control) :
    controlStep inp (s.withTxBefore l) k = Result.withTxBefore l (controlStep inp s k) := by
  cases k with
  | upper i => exact guardedSend_withTxBefore (w := (·.setButtonLast .upper i _)) (fun _ => rfl) _ _ s
  | lower i => exact guardedSend_withTxBefore (w := (·.setButtonLast .lower i _)) (fun _ => rfl) _ _ s
  | slider i => exact guardedSend_withTxBefore (w := (·.setSliderLast i _)) (fun _ => rfl) _ _ s
  | knob i => exact guardedSend_withTxBefore (w := (·.setKnobLast i _)) (fun _ => rfl) _ _ s

theorem controlSteps_withTxBefore (l : List Packet) (inp : Snapshot) (ks : List Control) :
    ∀ s : State, controlSteps inp ks (s.withTxBefore l) =
      Result.withTxBefore l (controlSteps inp ks s) := by
  induction ks with
  | nil => intro s; rfl
  | cons k ks ih =>
    intro s
    simp only [controlSteps, controlStep_withTxBefore]
    cases controlStep inp s k with
    | next t => exact ih t
    | fault e => rfl
    | refused e => rfl

/-- No instruction reads the packets already sent (R30). -/
theorem exec_withTxBefore (l : List Packet) (i : Instr) (s : State) :
    exec i (s.withTxBefore l) = Result.withTxBefore l (exec i s) := by
  rcases instr_cases i with ⟨e, he⟩ | ⟨r, hr⟩ | ⟨inp, rfl⟩
  · rw [exec_of_txEvent he, exec_of_txEvent he]
    cases encEvent e <;> rfl
  · rw [exec_of_rxClass hr, exec_of_rxClass hr, (rxOblivious_withTxBefore l).rxResult_comm]
    rfl
  · show execTick inp (s.withTxBefore l) = Result.withTxBefore l (execTick inp s)
    unfold execTick
    rw [State.withTxBefore_cfg]
    split
    · exact controlSteps_withTxBefore l inp _ s
    · rfl

/-- Settles O37: a TX row writes neither log, an `RX` only the flush log, a tick only `tx`; and every
instruction commutes with packets put before those already sent. -/
theorem logsOnlyGrow : Obligations.LogsOnlyGrow := by
  constructor
  · intro i s t h
    rcases instr_cases i with ⟨e, he⟩ | ⟨r, hr⟩ | ⟨inp, rfl⟩
    · obtain ⟨p, rfl⟩ := eq_withEncoded_of_txEvent he h
      exact ⟨List.prefix_rfl, .inl rfl, fun _ => rfl, fun _ => rfl⟩
    · obtain rfl := eq_rxResult_of_rxClass hr h
      have htx := (rxResult_frame r s).1.tx
      exact ⟨htx ▸ List.prefix_rfl, rxResult_flushes_cases r s, fun _ => htx,
        fun hn => absurd ((isRx_iff_rxClass i).2 ⟨r, hr⟩) hn⟩
    · have hframe := controlSteps_frame (execTick_eq_next.1 h).2
      exact ⟨hframe.tx, .inl hframe.flushes, fun hn => absurd rfl (hn inp), fun _ => hframe.flushes⟩
  · intro i s t l h
    have hexec := exec_withTxBefore l i s
    rwa [h] at hexec

end Sys2Proof.Machine
end

section
/-! PROOFS. The words of the opcode table (spec/20_memory.md R51, R54; spec/30_encoding.md R66, R69):
a 32-bit word is read as the packet whose word view it is. -/

namespace Sys2Proof

/-- The word view as a number in base 256, header first (R51). -/
theorem Packet.toWord_toNat (p : Packet) :
    p.toWord.toNat =
      ((p.header.toNat * 256 + p.status.toNat) * 256 + p.data1.toNat) * 256 + p.data2.toNat := by
  have append_byte : ∀ {n : Nat} (x : BitVec n) (b : Byte),
      (x ++ b).toNat = x.toNat * 256 + b.toNat := fun x b => by
    rw [BitVec.toNat_append, ← Nat.shiftLeft_add_eq_or_of_lt b.isLt, Nat.shiftLeft_eq]
  simp only [Packet.toWord, append_byte]

/-- The bytes of a table word are those of the packet whose word view it is. -/
theorem tableBytes_toWord (p : Packet) : tableBytes 32 p.toWord.toNat = p.bytes := by
  have hh := p.header.isLt
  have hs := p.status.isLt
  have h1 := p.data1.isLt
  have h2 := p.data2.isLt
  have positions : List.range (max 4 ((32 + 7) / 8)) = [0, 1, 2, 3] := by decide
  simp only [tableBytes, positions, p.toWord_toNat, Packet.bytes, List.map_cons, List.map_nil,
    List.cons.injEq, and_true]
  refine ⟨?_, ?_, ?_, ?_⟩ <;> apply BitVec.eq_of_toNat_eq <;> simp <;> omega

/-- A table word of a packet of the encode table is read as sent (log entry 8). -/
theorem decodeTableWord_of_decodeTx_some {p : Packet} {w : Nat} {i : Instr}
    (hw : p.toWord.toNat = w) (h : decodeTx p = some i) : decodeTableWord 32 w = some i := by
  have hdec : decode .tx p.bytes = .ok i := by rw [decode_tx_bytes, h]
  simp only [decodeTableWord, ← hw, tableBytes_toWord, tableDirection, hdec, Except.toOption]

/-- Any other table word is read as received (log entry 8). -/
theorem decodeTableWord_of_decodeTx_none {p : Packet} {w : Nat}
    (hw : p.toWord.toNat = w) (h : decodeTx p = none) :
    decodeTableWord 32 w = some (decodeRx p) := by
  have hdec : decode .tx p.bytes = .error .notATxPacket := by rw [decode_tx_bytes, h]
  simp only [decodeTableWord, ← hw, tableBytes_toWord, tableDirection, hdec, decode_rx_bytes,
    Except.toOption]

/-- A table word whose header is none of the encode table's three (R66) is read as received. -/
theorem decodeTableWord_of_header {p : Packet} {w : Nat} (hw : p.toWord.toNat = w)
    (h : p.header ≠ 0x09#8 ∧ p.header ≠ 0x08#8 ∧ p.header ≠ 0x0B#8) :
    decodeTableWord 32 w = some (decodeRx p) := by
  obtain ⟨h9, h8, hB⟩ := h
  exact decodeTableWord_of_decodeTx_none hw (by simp [decodeTx, h9, h8, hB])

/-- A byte string of any other length than four is no packet, in either direction (R54). -/
theorem decode_of_length_ne_four (d : Direction) {bs : List Byte} (h : bs.length ≠ 4) :
    decode d bs = .error (.notFourBytes bs.length) := by
  match bs with
  | [_, _, _, _] => exact absurd rfl h
  | [] | [_] | [_, _] | [_, _, _] | _ :: _ :: _ :: _ :: _ :: _ => rfl

/-- Settles O3: three words are packets of the encode table, four have another header and take the row
of their class, and of the two received strings only the first has four bytes. -/
theorem specWordsDecodeToTheirRows : Obligations.SpecWordsDecodeToTheirRows := by
  refine ⟨?noteOn, ?noteOff, ?cc, ?empty, ?cin0, ?cin4, ?cinF, ?bytes, ?short⟩
  case noteOn => exact decodeTableWord_of_decodeTx_some (by decide) <|
    decodeTx_noteOn 0 60 100 (by decide) (by decide) (by decide)
  case noteOff => exact decodeTableWord_of_decodeTx_some (by decide) <|
    decodeTx_noteOff 3 0 0 (by decide) (by decide) (by decide)
  case cc => exact decodeTableWord_of_decodeTx_some (by decide) <|
    decodeTx_cc 15 127 0 (by decide) (by decide) (by decide)
  case empty => exact decodeTableWord_of_header (p := ⟨0x00, 0x90, 0x3C, 0x64⟩) (by decide) (by decide)
  case cin0 => exact decodeTableWord_of_header (p := ⟨0x10, 0x00, 0x00, 0x00⟩) (by decide) (by decide)
  case cin4 => exact decodeTableWord_of_header (p := ⟨0x04, 0xF0, 0x7E, 0x7F⟩) (by decide) (by decide)
  case cinF => exact decodeTableWord_of_header (p := ⟨0x0F, 0xF8, 0x00, 0x00⟩) (by decide) (by decide)
  case bytes => exact decode_rx_bytes ⟨0x19, 0x90, 0x3C, 0x64⟩
  case short => exact decode_of_length_ne_four .rx (by decide)

end Sys2Proof
end

section
/-! PROOFS. The class of a received packet and its effect (spec/30_encoding.md R69 to R72,
43_decoder.md R130): the CIN decides why a packet is ignored or that it is a `Voice3`, the whole-header
test for `Empty` comes before it, and a `Voice3` acts through its two data bytes alone. -/

namespace Sys2Proof.Machine

open Sys2Proof.Claims

/-! ### The class table of R69 -/

/-- Why a packet with this CIN is ignored; `none` for the six CINs of the 3-byte category. -/
def ignoreReason (cin : Nibble) : Option IgnoreReason :=
  if cin = 0x0#4 ∨ cin = 0x1#4 then some .reserved
  else if cin = 0x2#4 ∨ cin = 0xC#4 ∨ cin = 0xD#4 then some .twoByte
  else if cin = 0x4#4 ∨ cin = 0x5#4 ∨ cin = 0x6#4 ∨ cin = 0x7#4 then some .sysEx
  else if cin = 0xF#4 then some .singleByte
  else none

theorem ignoreReason_reserved :
    ∀ cin, cin = 0x0#4 ∨ cin = 0x1#4 → ignoreReason cin = some .reserved := by
  decide

theorem ignoreReason_twoByte :
    ∀ cin, cin = 0x2#4 ∨ cin = 0xC#4 ∨ cin = 0xD#4 → ignoreReason cin = some .twoByte := by
  decide

theorem ignoreReason_sysEx :
    ∀ cin, cin = 0x4#4 ∨ cin = 0x5#4 ∨ cin = 0x6#4 ∨ cin = 0x7#4 →
      ignoreReason cin = some .sysEx := by
  decide

theorem ignoreReason_singleByte : ∀ cin, cin = 0xF#4 → ignoreReason cin = some .singleByte := by
  decide

theorem ignoreReason_voice :
    ∀ cin, cin = 0x3#4 ∨ cin = 0x8#4 ∨ cin = 0x9#4 ∨ cin = 0xA#4 ∨ cin = 0xB#4 ∨ cin = 0xE#4 →
      ignoreReason cin = none := by
  decide

/-- The class of a packet whose header is not 0, from its CIN and its body. -/
def classOfCin (cin : Nibble) (b : RxBody) : DecodeResult :=
  match ignoreReason cin with
  | some reason => .ignored reason cin
  | none => .voice3 (voice cin b)

theorem classOfCin_of_some {cin : Nibble} {reason : IgnoreReason}
    (h : ignoreReason cin = some reason) (b : RxBody) :
    classOfCin cin b = .ignored reason cin := by
  simp [classOfCin, h]

theorem classOfCin_of_none {cin : Nibble} (h : ignoreReason cin = none) (b : RxBody) :
    classOfCin cin b = .voice3 (voice cin b) := by
  simp [classOfCin, h]

theorem decodeResult_of_header_zero {p : Packet} (h : p.header = 0x00#8) :
    decodeResult (some p) = .empty := by
  simp [decodeResult, h]

theorem decodeResult_of_header_ne_zero {p : Packet} (h : p.header ≠ 0x00#8) :
    decodeResult (some p) = classOfCin p.cin p.body := by
  have hn : p.header.toNat ≠ 0 := fun e => h (BitVec.eq_of_toNat_eq (by simpa using e))
  simp only [decodeResult, hn, if_false, ← loNibble_toNat, Packet.cin]
  rcases nibble_cases (loNibble p.header) with
      k | k | k | k | k | k | k | k | k | k | k | k | k | k | k | k <;>
    simp [k, classOfCin, ignoreReason, voice3Of, voice]

/-- A header of 0 has CIN 0, a reserved one: no other class needs the header test of R70. -/
theorem header_ne_zero_of_ignoreReason {p : Packet} (h : ignoreReason p.cin ≠ some .reserved) :
    p.header ≠ 0x00#8 :=
  fun e => h (ignoreReason_reserved _ (.inl (p.header_eq_zero.1 e).2))

theorem decodeResult_of_ignoreReason_none {p : Packet} (h : ignoreReason p.cin = none) :
    decodeResult (some p) = .voice3 (voice p.cin p.body) := by
  have hz : p.header ≠ 0x00#8 := header_ne_zero_of_ignoreReason (by simp [h])
  rw [decodeResult_of_header_ne_zero hz, classOfCin_of_none h]

theorem decodeResult_of_ignoreReason_some {p : Packet} {reason : IgnoreReason}
    (h : ignoreReason p.cin = some reason) :
    decodeResult (some p) = if p.header = 0x00#8 then .empty else .ignored reason p.cin := by
  split
  case isTrue hz => exact decodeResult_of_header_zero hz
  case isFalse hz => rw [decodeResult_of_header_ne_zero hz, classOfCin_of_some h]

/-- `DECODE` is the class table: each row of R69 is one value of `ignoreReason`, and only CIN 0 meets the
header test of R70. -/
theorem classOfHeader_decodeResult (p : Packet) : ClassOfHeader p (decodeResult (some p)) := by
  have ignored : ∀ {reason}, p.header ≠ 0x00#8 → ignoreReason p.cin = some reason →
      decodeResult (some p) = .ignored reason p.cin := fun hz hr => by
    rw [decodeResult_of_ignoreReason_some hr, if_neg hz]
  have ignored_of_ne : ∀ {reason}, reason ≠ .reserved → ignoreReason p.cin = some reason →
      decodeResult (some p) = .ignored reason p.cin := fun hne hr =>
    ignored (header_ne_zero_of_ignoreReason (by simpa [hr] using hne)) hr
  refine ⟨decodeResult_of_header_zero, ?reserved, ?twoByte, ?sysEx, ?singleByte, ?voice⟩
  case reserved => exact fun hz h => ignored hz (ignoreReason_reserved _ h)
  case twoByte => exact fun h => ignored_of_ne (by decide) (ignoreReason_twoByte _ h)
  case sysEx => exact fun h => ignored_of_ne (by decide) (ignoreReason_sysEx _ h)
  case singleByte => exact fun h => ignored_of_ne (by decide) (ignoreReason_singleByte _ h)
  case voice => exact fun h => decodeResult_of_ignoreReason_none (ignoreReason_voice _ h)

/-! ### What an RX makes of its class (R130) -/

theorem exec_decodeRx (p : Packet) (s : State) :
    exec (decodeRx p) s = .next (rxResult (decodeResult (some p)) s) :=
  exec_of_rxClass (rxClass_decodeRx p) s

theorem rxResult_report (r : DecodeResult) (s : State) : (rxResult r s).report = some r :=
  (rxResult_frame r s).2.1

theorem rxResult_of_not_voice {r : DecodeResult} (h : ∀ v, r ≠ .voice3 v) (s : State) :
    rxResult r s = s.withReport r := by
  cases r with
  | empty => rfl
  | ignored reason cin => rfl
  | voice3 v => exact absurd rfl (h v)

/-- Settles O10: `RX_POLL` and the decoded row both run to `rxResult` of `DECODE`, which is the class
table. -/
theorem rxClassifiesByHeader : Obligations.RxClassifiesByHeader := by
  refine ⟨fun p s => ?_, fun s => rfl⟩
  refine ⟨rxResult (decodeResult (some p)) s, decodeResult (some p), rfl, exec_decodeRx p s,
    classOfHeader_decodeResult p, rxResult_report _ s, fun v hv => ?_,
    fun hv => rxResult_of_not_voice hv s⟩
  rw [hv]
  rfl

/-! ### What the status byte and the cable do not steer (R71, R72) -/

/-- One class, whatever the payload of a `Voice3`. -/
inductive SameClass : DecodeResult → DecodeResult → Prop
  | refl (r : DecodeResult) : SameClass r r
  | voice3 (v w : Voice3) : SameClass (.voice3 v) (.voice3 w)

theorem SameClass.forms_iff {r r' : DecodeResult} (h : SameClass r r') :
    (r = .empty ↔ r' = .empty) ∧
      (∀ reason cin, r = .ignored reason cin ↔ r' = .ignored reason cin) ∧
      ((∃ v, r = .voice3 v) ↔ ∃ v, r' = .voice3 v) := by
  cases h with
  | refl r => exact ⟨Iff.rfl, fun _ _ => Iff.rfl, Iff.rfl⟩
  | voice3 v w => simp

/-- Equal CINs give one class once the header test of R70 answers alike. -/
theorem sameClass_of_cin_eq {p q : Packet} (hcin : p.cin = q.cin)
    (hz : p.header = 0x00#8 ↔ q.header = 0x00#8) :
    SameClass (decodeResult (some p)) (decodeResult (some q)) := by
  cases hr : ignoreReason p.cin with
  | none =>
    rw [decodeResult_of_ignoreReason_none hr, decodeResult_of_ignoreReason_none (hcin ▸ hr)]
    exact .voice3 _ _
  | some reason =>
    rw [decodeResult_of_ignoreReason_some hr, decodeResult_of_ignoreReason_some (hcin ▸ hr), hcin]
    simp only [hz]
    exact .refl _

/-- `LED_MAP` reads nothing of its `Voice3` but the data bytes (R160). -/
theorem ledMap_congr_data {v w : Voice3} (h1 : v.data1 = w.data1) (h2 : v.data2 = w.data2)
    (s : State) : ledMap v s = ledMap w s := by
  simp only [ledMap, h1, h2]

/-- An ignored CIN reaches no `Voice3`, whether or not the header is 0, and so has no effect. -/
theorem rxResult_of_ignoreReason_some {p : Packet} {reason : IgnoreReason}
    (h : ignoreReason p.cin = some reason) (s : State) :
    rxResult (decodeResult (some p)) s = s.withReport (decodeResult (some p)) := by
  refine rxResult_of_not_voice (fun v => ?_) s
  rw [decodeResult_of_ignoreReason_some h]
  split <;> simp

/-- One CIN and one pair of data bytes have one effect. -/
theorem rxResult_effect_congr {p q : Packet} (hcin : p.cin = q.cin) (h1 : p.data1 = q.data1)
    (h2 : p.data2 = q.data2) (s : State) :
    { rxResult (decodeResult (some p)) s with report := none } =
      { rxResult (decodeResult (some q)) s with report := none } := by
  cases hr : ignoreReason p.cin with
  | none =>
    rw [decodeResult_of_ignoreReason_none hr, decodeResult_of_ignoreReason_none (hcin ▸ hr)]
    have hled : ledMap (voice p.cin p.body) s = ledMap (voice q.cin q.body) s :=
      ledMap_congr_data h1 h2 s
    simp only [rxResult, hled, State.withReport]
  | some reason =>
    rw [rxResult_of_ignoreReason_some hr, rxResult_of_ignoreReason_some (hcin ▸ hr)]
    rfl

/-- Settles O15: the class needs only the CIN and the header test, the effect only the CIN and the data
bytes. -/
theorem statusAndCableDoNotSteerTheEffect : Obligations.StatusAndCableDoNotSteerTheEffect := by
  intro p q s hcin h1 h2
  refine ⟨_, _, exec_decodeRx p s, exec_decodeRx q s, rxResult_effect_congr hcin h1 h2 s,
    fun hh => ?_⟩
  have hz : p.header = 0x00#8 ↔ q.header = 0x00#8 := by
    rcases hh with h | ⟨hp, hq⟩
    · rw [h]
    · exact iff_of_false hp hq
  simpa only [rxResult_report, Option.some.injEq] using (sameClass_of_cin_eq hcin hz).forms_iff

end Sys2Proof.Machine
end

section
/-! PROOFS. What a tick sends (spec/30_encoding.md R68, 41_tracker.md R106 (a)): the packets of the 19
controls, at most one for each, in the closed form of the control steps. -/

namespace Sys2Proof.Machine

/-- A note of a button on cable and channel 0: pressed with velocity 127, released with velocity 0
(R102). -/
def IsButtonNote (c : Config) (p : Packet) : Prop :=
  (p.header = 0x09#8 ∧ p.status = 0x90#8 ∧ p.data2 = 0x7F#8 ∨
      p.header = 0x08#8 ∧ p.status = 0x80#8 ∧ p.data2 = 0x00#8) ∧
    ∃ row i, p.data1.toNat = (buttonIds c row).get i

/-- A Control Change on cable and channel 0, of controller 1 to 9 with a 7-bit value (R103, R104). -/
def IsAnalogChange (p : Packet) : Prop :=
  p.header = 0x0B#8 ∧ p.status = 0xB0#8 ∧ 1 ≤ p.data1.toNat ∧ p.data1.toNat ≤ 9 ∧
    p.data2.toNat ≤ 127

/-! ### One control -/

theorem toNat_ofNat_of_le_127 {n : Nat} (h : n ≤ 127) : (BitVec.ofNat 8 n).toNat = n := by
  rw [BitVec.toNat_ofNat, Nat.mod_eq_of_lt (by omega)]

theorem buttonIds_le {c : Config} (hc : c.admissible = true) (row : Row) (i : Fin 5) :
    (buttonIds c row).get i ≤ 127 := by
  obtain ⟨-, hu, hl, -⟩ := c.admissible_iff.1 hc
  cases row with
  | upper => exact hu i
  | lower => exact hl i

theorem isButtonNote_of_mem_buttonPackets {c : Config} (hc : c.admissible = true) (row : Row)
    (i : Fin 5) {b last : Bit} {p : Packet}
    (hp : p ∈ buttonPackets ((buttonIds c row).get i) b last) : IsButtonNote c p := by
  have hid := toNat_ofNat_of_le_127 (buttonIds_le hc row i)
  unfold buttonPackets at hp
  split at hp
  case isTrue => cases hp
  case isFalse =>
    split at hp
    case isTrue =>
      obtain rfl := List.mem_singleton.1 hp
      exact ⟨.inl ⟨rfl, rfl, rfl⟩, row, i, hid⟩
    case isFalse =>
      obtain rfl := List.mem_singleton.1 hp
      exact ⟨.inr ⟨rfl, rfl, rfl⟩, row, i, hid⟩

/-- The Control Change of an analog control, once its controller and value are in range. -/
theorem isAnalogChange_of_le {k v : Nat} (h1 : 1 ≤ k) (h9 : k ≤ 9) (hv : v ≤ 127) :
    IsAnalogChange ⟨0x0B#8, 0xB0#8, BitVec.ofNat 8 k, BitVec.ofNat 8 v⟩ := by
  have hk := toNat_ofNat_of_le_127 (n := k) (by omega)
  have hv' := toNat_ofNat_of_le_127 hv
  exact ⟨rfl, rfl, by rwa [hk], by rwa [hk], by rwa [hv']⟩

theorem isAnalogChange_of_mem_sliderPackets (c : Config) (i : Fin 5) {v last : Nat} {p : Packet}
    (hp : p ∈ sliderPackets c i.val v last) : IsAnalogChange p := by
  unfold sliderPackets at hp
  split at hp
  case isTrue =>
    obtain rfl := List.mem_singleton.1 hp
    exact isAnalogChange_of_le (by omega) (by omega) (Nat.sub_le _ _)
  case isFalse => cases hp

/-- A knob's value is 7-bit because its sample is in range (R92). -/
theorem isAnalogChange_of_mem_knobPackets {c : Config} (hR : 7 ≤ c.R) (i : Fin 4) {v last : Nat}
    (hv : v < 2 ^ c.R) {p : Packet} (hp : p ∈ knobPackets c i.val v last) : IsAnalogChange p := by
  unfold knobPackets at hp
  split at hp
  case isTrue =>
    obtain rfl := List.mem_singleton.1 hp
    exact isAnalogChange_of_le (by omega) (by omega) (toSevenBit_le c hR v hv)
  case isFalse => cases hp

theorem isButtonNote_or_isAnalogChange_of_mem_controlPackets {inp : Snapshot} {s : State}
    (hc : s.cfg.admissible = true) (hi : inp.inRange s.cfg = true) (k : Control) {p : Packet}
    (hp : p ∈ controlPackets inp s k) :
    IsButtonNote s.cfg p ∨ IsAnalogChange p := by
  have hR : 7 ≤ s.cfg.R := (s.cfg.admissible_iff.1 hc).1
  cases k with
  | upper i => exact .inl (isButtonNote_of_mem_buttonPackets hc .upper i hp)
  | lower i => exact .inl (isButtonNote_of_mem_buttonPackets hc .lower i hp)
  | slider i => exact .inr (isAnalogChange_of_mem_sliderPackets s.cfg i hp)
  | knob i => exact .inr (isAnalogChange_of_mem_knobPackets hR i (knobSample_lt hi i) hp)

theorem buttonPackets_length_le_one (id : Nat) (b last : Bit) :
    (buttonPackets id b last).length ≤ 1 := by
  unfold buttonPackets
  split_ifs <;> simp

theorem sliderPackets_length_le_one (c : Config) (i v last : Nat) :
    (sliderPackets c i v last).length ≤ 1 := by
  unfold sliderPackets
  split_ifs <;> simp

theorem knobPackets_length_le_one (c : Config) (i v last : Nat) :
    (knobPackets c i v last).length ≤ 1 := by
  unfold knobPackets
  split_ifs <;> simp

theorem controlPackets_length_le_one (inp : Snapshot) (s : State) (k : Control) :
    (controlPackets inp s k).length ≤ 1 := by
  cases k with
  | upper i => exact buttonPackets_length_le_one _ _ _
  | lower i => exact buttonPackets_length_le_one _ _ _
  | slider i => exact sliderPackets_length_le_one _ _ _ _
  | knob i => exact knobPackets_length_le_one _ _ _ _

/-! ### The whole tick -/

theorem visitOrder_length (o : ScanOrder) : (visitOrder o).length = 19 := by
  cases o <;> rfl

/-- What a completed tick appends to `tx`: each control's packets, in visiting order. -/
theorem execTick_tx {inp : Snapshot} {s t : State} (hc : s.cfg.admissible = true)
    (h : execTick inp s = .next t) :
    t.tx = s.tx ++ (visitOrder s.cfg.scanOrder).flatMap (controlPackets inp s) := by
  obtain ⟨hi, hk⟩ := execTick_eq_next.1 h
  rw [controlSteps_eq _ hc hi] at hk
  obtain rfl := Host.Outcome.next.inj hk
  exact foldl_afterControl_tx _ (visitOrder_nodup _) s

/-- A list of controls sends at most one packet for each. -/
theorem flatMap_controlPackets_length_le (inp : Snapshot) (s : State) (ks : List Control) :
    (ks.flatMap (controlPackets inp s)).length ≤ ks.length := by
  induction ks with
  | nil => rfl
  | cons k ks ih =>
    have hk := controlPackets_length_le_one inp s k
    simp only [List.flatMap_cons, List.length_append, List.length_cons]
    omega

/-- Settles O32: 19 controls send at most one packet each, a button its note, a slider or knob its
Control Change. -/
theorem tickPacketsAreThoseOfTheTracker : Obligations.TickPacketsAreThoseOfTheTracker := by
  intro inp s t hc h
  have hi : inp.inRange s.cfg = true := (execTick_eq_next.1 h).1
  refine ⟨_, execTick_tx hc h, ?_, fun p hp => ?_⟩
  · rw [← visitOrder_length s.cfg.scanOrder]
    exact flatMap_controlPackets_length_le inp s _
  · obtain ⟨k, -, hk⟩ := List.mem_flatMap.1 hp
    exact isButtonNote_or_isAnalogChange_of_mem_controlPackets hc hi k hk

end Sys2Proof.Machine
end

section
/-! PROOFS. The Quantizer (spec/40_quantizer.md R90 to R94): the significance test as a strict distance,
the conversion as the top seven bits, and what a significant change does to the 7-bit value. -/

namespace Sys2Proof.Machine

/-! ### The significance test -/

theorem isSignificant_iff_cf_lt_abs (c : Config) (a b : Nat) :
    isSignificant c a b = true ↔ (c.cf : Int) < |(a : Int) - b| := by
  rw [isSignificant, decide_eq_true_eq, ← Int.natCast_natAbs, Nat.cast_lt]

theorem isSignificant_comm (c : Config) (a b : Nat) :
    isSignificant c a b = isSignificant c b a := by
  rw [Bool.eq_iff_iff, isSignificant_iff_cf_lt_abs, isSignificant_iff_cf_lt_abs, abs_sub_comm]

@[simp] theorem isSignificant_self (c : Config) (a : Nat) : isSignificant c a a = false := by
  simp [isSignificant]

/-- Settles O23: the test is the distance of the samples against `CF`. -/
theorem significanceIsAStrictDistance : Obligations.SignificanceIsAStrictDistance := fun c a b =>
  ⟨isSignificant_iff_cf_lt_abs c a b, isSignificant_comm c a b, isSignificant_self c a⟩

/-! ### The conversion -/

/-- `CF` is a power of two, so dividing by it drops the low `R - 7` bits. -/
theorem toSevenBit_eq_shiftRight (c : Config) (h : 7 ≤ c.R) (v : Nat) :
    toSevenBit c v = v >>> (c.R - 7) := by
  rw [toSevenBit, c.cf_eq h, Nat.shiftRight_eq_div_pow]

theorem toSevenBit_mono (c : Config) : Monotone (toSevenBit c) :=
  fun _ _ h => Nat.div_le_div_right h

theorem knobValue_mono (c : Config) : Monotone (knobValue c) :=
  toSevenBit_mono c

/-- The slider's value is inverted (R103). -/
theorem sliderValue_anti (c : Config) : Antitone (sliderValue c) :=
  fun _ _ h => Nat.sub_le_sub_left (toSevenBit_mono c h) 127

/-- Within the range of samples the slider's truncated subtraction loses nothing. -/
theorem sliderValue_add_knobValue (c : Config) (h : 7 ≤ c.R) (v : Nat) (hv : v < 2 ^ c.R) :
    sliderValue c v + knobValue c v = 127 :=
  Nat.sub_add_cancel (toSevenBit_le c h v hv)

/-- Settles O24: the shift, the range with the inversion, and the three monotonicities. -/
theorem conversionIsTheTopSevenBits : Obligations.ConversionIsTheTopSevenBits := fun c hR =>
  ⟨toSevenBit_eq_shiftRight c hR,
    fun v hv => ⟨toSevenBit_le c hR v hv, sliderValue_add_knobValue c hR v hv⟩,
    fun _ _ h => ⟨toSevenBit_mono c h, sliderValue_anti c h, knobValue_mono c h⟩⟩

/-! ### Significant changes and the 7-bit value -/

/-- One step of `CF` in the sample is one step of the 7-bit value. -/
theorem toSevenBit_add_cf (c : Config) (h : 7 ≤ c.R) (v : Nat) :
    toSevenBit c (v + c.cf) = toSevenBit c v + 1 :=
  Nat.add_div_right v (c.cf_pos h)

theorem toSevenBit_lt_of_add_cf_le {c : Config} (h : 7 ≤ c.R) {v w : Nat} (hvw : v + c.cf ≤ w) :
    toSevenBit c v < toSevenBit c w :=
  calc toSevenBit c v
      < toSevenBit c (v + c.cf) := by rw [toSevenBit_add_cf c h]; exact Nat.lt_succ_self _
    _ ≤ toSevenBit c w := toSevenBit_mono c hvw

/-- A change beyond `CF`, in either direction, crosses a multiple of `CF` (R94). -/
theorem toSevenBit_ne_of_isSignificant {c : Config} (h : 7 ≤ c.R) {a b : Nat}
    (hs : isSignificant c a b = true) : toSevenBit c a ≠ toSevenBit c b := by
  rcases (isSignificant_iff_cf_lt_sub c a b).1 hs with hab | hba
  · exact (toSevenBit_lt_of_add_cf_le h (by omega : b + c.cf ≤ a)).ne'
  · exact (toSevenBit_lt_of_add_cf_le h (by omega : a + c.cf ≤ b)).ne

/-- Settles O25: a significant change moves the 7-bit value; samples 31 and 32 lie on either side of a
multiple of `CF = 32` at distance 1. -/
theorem significantChangeMovesSevenBitValue : Obligations.SignificantChangeMovesSevenBitValue := by
  refine ⟨fun c a b hR hs => toSevenBit_ne_of_isSignificant hR hs, fun c h12 => ?_⟩
  have hcf : c.cf = 32 := c.cf_of_R_eq_twelve h12
  constructor
  · rw [toSevenBit, toSevenBit, hcf]
    decide
  · rw [isSignificant, hcf]
    decide

end Sys2Proof.Machine
end

section
/-! PROOFS. The step of one control (spec/41_tracker.md R102 to R104): what it answers, and the one write
it makes. -/

namespace Sys2Proof.Machine

/-! ### A button -/

theorem buttonStep_of_eq_last {row : Row} {i : Fin 5} {b : Bit} {s : State}
    (hb : b = (s.buttonLast row).get i) : buttonStep row i b s = .next s := by
  simp [buttonStep, buttonChanged, hb]

theorem buttonPackets_of_ne (id : Nat) {b last : Bit} (hb : b ≠ last) :
    buttonPackets id b last =
      [if b = 0#1 then ⟨0x09#8, 0x90#8, BitVec.ofNat 8 id, 0x7F#8⟩
       else ⟨0x08#8, 0x80#8, BitVec.ofNat 8 id, 0x00#8⟩] := by
  rw [buttonPackets, if_neg hb]
  split <;> rfl

theorem buttonStep_of_ne_last {row : Row} {i : Fin 5} {b : Bit} {s : State}
    (hid : (buttonIds s.cfg row).get i ≤ 127) (hb : b ≠ (s.buttonLast row).get i) :
    ∃ p, buttonPackets ((buttonIds s.cfg row).get i) b ((s.buttonLast row).get i) = [p] ∧
      buttonStep row i b s = .next ((s.send p).setButtonLast row i b) := by
  obtain ⟨p, hp, hq⟩ := encButton_eq hid hb
  exact ⟨p, hq, by simp [buttonStep, buttonChanged, hb, hp]⟩

theorem State.setButtonLast_buttonLast_get (s : State) (row r : Row) (i j : Fin 5) (b : Bit) :
    ((s.setButtonLast row i b).buttonLast r).get j =
      if r = row ∧ j = i then b else (s.buttonLast r).get j := by
  by_cases hr : r = row
  · subst hr
    simp [Five.get_set]
  · cases r <;> cases row <;> simp_all [State.buttonLast, State.setButtonLast]

/-- A button's write, after its packet is sent, touches `tx` and the two rows only. -/
theorem State.send_setButtonLast_frame (s : State) (p : Packet) (row : Row) (i : Fin 5) (b : Bit) :
    (s.send p).setButtonLast row i b =
      { s with
        tx := s.tx ++ [p]
        upperLast := ((s.send p).setButtonLast row i b).upperLast
        lowerLast := ((s.send p).setButtonLast row i b).lowerLast } := by
  cases row <;> rfl

/-- Settles O26: an unchanged reading takes the idle branch; a changed one sends the button's one packet
and writes its register. -/
theorem buttonStepSendsOnChange : Obligations.ButtonStepSendsOnChange := by
  refine fun row i b s hid => ⟨buttonStep_of_eq_last, fun hb => ?_⟩
  obtain ⟨p, hp, hstep⟩ := buttonStep_of_ne_last hid hb
  rw [buttonPackets_of_ne _ hb] at hp
  refine ⟨_, hstep, ?_, fun r j => ?_, ?_⟩
  · rw [hp, State.setButtonLast_tx, State.send_tx]
  · rw [State.setButtonLast_buttonLast_get, State.send_buttonLast]
  · simpa using s.send_setButtonLast_frame p row i b

/-! ### A slider and a knob -/

theorem isSignificant_eq_false_iff (c : Config) (v last : Nat) :
    isSignificant c v last = false ↔ |(v : Int) - last| ≤ c.cf := by
  rw [← Bool.not_eq_true, isSignificant_iff_cf_lt_abs, not_lt]

/-- The Control Change of the block's channel, in the encode table's bytes (R66, R9). -/
theorem encCc_ch {k v : Nat} (hk : k ≤ 127) (hv : v ≤ 127) :
    encCc Config.ch k v = .ok ⟨0x0B#8, 0xB0#8, BitVec.ofNat 8 k, BitVec.ofNat 8 v⟩ :=
  encCc_eq_ok.2 ⟨⟨by decide, hk, hv⟩, rfl⟩

theorem sliderStep_of_significant {i : Fin 5} {v : Nat} {s : State}
    (h : isSignificant s.cfg v (s.sliderLast.get i) = true) :
    sliderStep i v s = .next ((s.send
      ⟨0x0B#8, 0xB0#8, BitVec.ofNat 8 (i.val + 1), BitVec.ofNat 8 (sliderValue s.cfg v)⟩).setSliderLast
        i v) := by
  have henc := encCc_ch (k := i.val + 1) (by omega) (Nat.sub_le 127 (toSevenBit s.cfg v))
  rw [sliderStep, if_pos h, sliderValue, henc, emit_ok, andThen_next]

theorem sliderStep_of_not_significant {i : Fin 5} {v : Nat} {s : State}
    (h : isSignificant s.cfg v (s.sliderLast.get i) = false) : sliderStep i v s = .next s := by
  simp [sliderStep, h]

theorem knobStep_of_significant {i : Fin 4} {v : Nat} {s : State} (hR : 7 ≤ s.cfg.R)
    (hv : v < 2 ^ s.cfg.R) (h : isSignificant s.cfg v (s.knobLast.get i) = true) :
    knobStep i v s = .next ((s.send
      ⟨0x0B#8, 0xB0#8, BitVec.ofNat 8 (i.val + 6), BitVec.ofNat 8 (knobValue s.cfg v)⟩).setKnobLast
        i v) := by
  have henc := encCc_ch (k := i.val + 6) (by omega) (toSevenBit_le s.cfg hR v hv)
  rw [knobStep, if_pos h, knobValue, henc, emit_ok, andThen_next]

theorem knobStep_of_not_significant {i : Fin 4} {v : Nat} {s : State}
    (h : isSignificant s.cfg v (s.knobLast.get i) = false) : knobStep i v s = .next s := by
  simp [knobStep, h]

/-- Settles O27: the distance to the baseline decides the branch of either step (R91). -/
theorem analogStepsSendBeyondTheThreshold : Obligations.AnalogStepsSendBeyondTheThreshold :=
  fun s v hR hv =>
    ⟨fun _ =>
      ⟨fun h => sliderStep_of_significant ((isSignificant_iff_cf_lt_abs s.cfg v _).2 h),
        fun h => sliderStep_of_not_significant ((isSignificant_eq_false_iff s.cfg v _).2 h)⟩,
    fun _ =>
      ⟨fun h => knobStep_of_significant hR hv ((isSignificant_iff_cf_lt_abs s.cfg v _).2 h),
        fun h => knobStep_of_not_significant ((isSignificant_eq_false_iff s.cfg v _).2 h)⟩⟩

end Sys2Proof.Machine
end

section
/-! PROOFS. What a tick leaves alone (spec/41_tracker.md R100, R106 (b)), whatever the configuration: a
control's step only sends a packet and stores the control's own reading. -/

namespace Sys2Proof.Machine

/-- The write of a control's own `last` register, of its own reading. -/
def Control.store (inp : Snapshot) : Control → State → State
  | .upper i, s => s.setButtonLast .upper i (inp.upper.get i)
  | .lower i, s => s.setButtonLast .lower i (inp.lower.get i)
  | .slider i, s => s.setSliderLast i (inp.sliderSample i)
  | .knob i, s => s.setKnobLast i (inp.knobSample i)

/-- The shape of all three control steps, on a change a packet sent and a register written, reaches a
state by its idle branch or by both. -/
theorem guardedSend_eq_next {changed : Bool} {e : Except Refusal Packet} {w : State → State}
    {s t : State}
    (h : (if changed then andThen (s.emit e) fun u => .next (w u) else .next s) = .next t) :
    t = s ∨ ∃ p, t = w (s.send p) := by
  cases changed with
  | false => exact .inl (Host.Outcome.next.inj h).symm
  | true =>
    obtain ⟨u, hu, ht⟩ := andThen_eq_next.1 h
    obtain ⟨p, -, rfl⟩ := emit_eq_next.1 hu
    exact .inr ⟨p, (Host.Outcome.next.inj ht).symm⟩

/-- A control's step stores its own reading or nothing (which `controlStep_cases` leaves open for a
button). -/
theorem controlStep_eq_or_store {inp : Snapshot} {s t : State} {k : Control}
    (h : controlStep inp s k = .next t) : t = s ∨ ∃ p, t = k.store inp (s.send p) := by
  cases k with
  | upper i => exact guardedSend_eq_next (w := (Control.upper i).store inp) h
  | lower i => exact guardedSend_eq_next (w := (Control.lower i).store inp) h
  | slider i => exact guardedSend_eq_next (w := (Control.slider i).store inp) h
  | knob i => exact guardedSend_eq_next (w := (Control.knob i).store inp) h

/-- Each `last` register of `t` holds its value in `s` or its own control's reading. -/
structure LastOldOrRead (inp : Snapshot) (s t : State) : Prop where
  upper : ∀ i, t.upperLast.get i = s.upperLast.get i ∨ t.upperLast.get i = inp.upper.get i
  lower : ∀ i, t.lowerLast.get i = s.lowerLast.get i ∨ t.lowerLast.get i = inp.lower.get i
  slider : ∀ i, t.sliderLast.get i = s.sliderLast.get i ∨ t.sliderLast.get i = inp.sliderSample i
  knob : ∀ i, t.knobLast.get i = s.knobLast.get i ∨ t.knobLast.get i = inp.knobSample i

theorem LastOldOrRead.refl (inp : Snapshot) (s : State) : LastOldOrRead inp s s :=
  ⟨fun _ => .inl rfl, fun _ => .inl rfl, fun _ => .inl rfl, fun _ => .inl rfl⟩

/-- A bank whose entries are old or read stays one when an entry is replaced by its reading. -/
theorem get_set_five_old_or_read {α : Type} {v old : Five α} {read : Fin 5 → α}
    (h : ∀ j, v.get j = old.get j ∨ v.get j = read j) (i j : Fin 5) :
    (v.set i (read i)).get j = old.get j ∨ (v.set i (read i)).get j = read j := by
  rw [Five.get_set]
  split
  case isTrue hj => exact .inr (by rw [hj])
  case isFalse => exact h j

theorem get_set_four_old_or_read {α : Type} {v old : Four α} {read : Fin 4 → α}
    (h : ∀ j, v.get j = old.get j ∨ v.get j = read j) (i j : Fin 4) :
    (v.set i (read i)).get j = old.get j ∨ (v.set i (read i)).get j = read j := by
  rw [Four.get_set]
  split
  case isTrue hj => exact .inr (by rw [hj])
  case isFalse => exact h j

theorem LastOldOrRead.send_store {inp : Snapshot} {s t : State} (h : LastOldOrRead inp s t)
    (p : Packet) (k : Control) : LastOldOrRead inp s (k.store inp (t.send p)) := by
  cases k with
  | upper i => exact { h with upper := get_set_five_old_or_read h.upper i }
  | lower i => exact { h with lower := get_set_five_old_or_read h.lower i }
  | slider i => exact { h with slider := get_set_five_old_or_read h.slider i }
  | knob i => exact { h with knob := get_set_four_old_or_read h.knob i }

theorem controlSteps_lastOldOrRead {inp : Snapshot} {ks : List Control} {s t : State}
    (h : controlSteps inp ks s = .next t) : LastOldOrRead inp s t := by
  refine controlSteps_induct (P := LastOldOrRead inp s) (fun u v k hk hu => ?_) ks h (.refl inp s)
  rcases controlStep_eq_or_store hk with rfl | ⟨p, rfl⟩
  · exact hu
  · exact hu.send_store p k

/-! ### Readings in range -/

theorem sliderSample_cast {c : Config} {inp : Snapshot} (h : inp.inRange c = true) (i : Fin 5) :
    (inp.sliderSample i : Int) = inp.slider.get i :=
  Int.toNat_of_nonneg (((Snapshot.inRange_iff c inp).1 h).1 i).1

theorem knobSample_cast {c : Config} {inp : Snapshot} (h : inp.inRange c = true) (i : Fin 4) :
    (inp.knobSample i : Int) = inp.knob.get i :=
  Int.toNat_of_nonneg (((Snapshot.inRange_iff c inp).1 h).2 i).1

/-- Settles O29: every step of the tick keeps the frame, and stores only a control's own reading. -/
theorem tickFrameIsItsOwnRegisters : Obligations.TickFrameIsItsOwnRegisters := by
  intro inp s t h
  obtain ⟨hi, hsteps⟩ := execTick_eq_next.1 h
  have hframe := controlSteps_frame hsteps
  have hlast := controlSteps_lastOldOrRead hsteps
  refine ⟨hframe.led, hframe.flushes, hframe.report, hframe.encoded, hframe.draws, hframe.cfg,
    hframe.pending, hframe.tx, hlast.upper, hlast.lower, fun i => ?_, fun i => ?_⟩
  · exact (hlast.slider i).imp id fun hr => by rw [hr, sliderSample_cast hi]
  · exact (hlast.knob i).imp id fun hr => by rw [hr, knobSample_cast hi]

end Sys2Proof.Machine
end

section
/-! PROOFS. `TICK` in closed form (spec/41_tracker.md R100 to R104), when it is refused
(spec/60_exceptions.md R171), and what follows from the closed form: `SCAN_ORDER` only reorders packets,
and a tick that reads what is stored is silent (R106, R107). -/

namespace Sys2Proof.Machine

open Sys2Proof.Claims

/-! ### The closed form -/

theorem State.eq_of_fields {s t : State} (cfg : s.cfg = t.cfg) (upper : s.upperLast = t.upperLast)
    (lower : s.lowerLast = t.lowerLast) (slider : s.sliderLast = t.sliderLast)
    (knob : s.knobLast = t.knobLast) (led : s.led = t.led) (tx : s.tx = t.tx)
    (flushes : s.flushes = t.flushes) (report : s.report = t.report)
    (encoded : s.encoded = t.encoded) (draws : s.draws = t.draws)
    (pending : s.pending = t.pending) : s = t := by
  cases s
  cases t
  simp_all

@[simp] theorem State.afterTick_sliderLast_get (s : State) (inp : Snapshot) (i : Fin 5) :
    (s.afterTick inp).sliderLast.get i =
      newBaseline s.cfg (inp.sliderSample i) (s.sliderLast.get i) :=
  Five.get_ofFn _ i

@[simp] theorem State.afterTick_knobLast_get (s : State) (inp : Snapshot) (i : Fin 4) :
    (s.afterTick inp).knobLast.get i = newBaseline s.cfg (inp.knobSample i) (s.knobLast.get i) :=
  Four.get_ofFn _ i

theorem State.afterTick_tx (s : State) (inp : Snapshot) :
    (s.afterTick inp).tx = s.tx ++ (scanSequence s.cfg.scanOrder).flatMap (controlPackets inp s) :=
  rfl

/-- The steps of the visiting order add up to the closed form: each control is visited once (R101). -/
theorem foldl_afterControl_visitOrder (inp : Snapshot) (s : State) :
    (visitOrder s.cfg.scanOrder).foldl (fun t k => t.afterControl inp k) s = s.afterTick inp := by
  have hn := visitOrder_nodup s.cfg.scanOrder
  obtain ⟨hupper, hlower, hslider, hknob, hcfg, hled, hflushes, hreport, hencoded, hdraws, hpending⟩ :=
    foldl_afterControl_registers (inp := inp) _ hn s
  refine State.eq_of_fields hcfg (Five.ext_get fun i => ?_) (Five.ext_get fun i => ?_)
    (Five.ext_get fun i => ?_) (Four.ext_get fun i => ?_) hled ?_ hflushes hreport hencoded hdraws
    hpending
  · simp [hupper, mem_visitOrder]
  · simp [hlower, mem_visitOrder]
  · simp [hslider, mem_visitOrder]
  · simp [hknob, mem_visitOrder]
  · rw [foldl_afterControl_tx _ hn, visitOrder_eq_scanSequence, State.afterTick_tx]

theorem exec_tick_of_inRange {s : State} {inp : Snapshot} (hc : s.cfg.admissible = true)
    (hi : inp.inRange s.cfg = true) : exec (.tick inp) s = .next (s.afterTick inp) :=
  execTick_eq_next.2 ⟨hi, by rw [controlSteps_eq _ hc hi, foldl_afterControl_visitOrder]⟩

theorem exec_tick_of_not_inRange {s : State} {inp : Snapshot} (hi : inp.inRange s.cfg = false) :
    exec (.tick inp) s = .refused .analogOutOfRange := by
  show execTick inp s = _
  simp [execTick, hi]

/-- Settles O28: the steps of the visiting order add up to the closed form; the range check comes first. -/
theorem tickReachesItsClosedForm : Obligations.TickReachesItsClosedForm :=
  fun _ _ => ⟨exec_tick_of_inRange, exec_tick_of_not_inRange⟩

/-! ### Refusal -/

theorem inRange_eq_false_iff (c : Config) (inp : Snapshot) :
    inp.inRange c = false ↔
      (∃ i, inp.slider.get i < 0 ∨ 2 ^ c.R - 1 < inp.slider.get i) ∨
        ∃ i, inp.knob.get i < 0 ∨ 2 ^ c.R - 1 < inp.knob.get i := by
  have houtside (v : Int) : (v < 0 ∨ 2 ^ c.R - 1 < v) ↔ ¬(0 ≤ v ∧ v < 2 ^ c.R) := by omega
  simp only [houtside, ← not_forall, ← not_and_or, ← Snapshot.inRange_iff, Bool.not_eq_true]

/-- Settles O30: a tick in range completes, one out of range is refused for that reason. -/
theorem tickRefusedExactlyOutOfRange : Obligations.TickRefusedExactlyOutOfRange := by
  intro s inp r hc
  rw [← inRange_eq_false_iff]
  cases hi : inp.inRange s.cfg with
  | true => simp [exec_tick_of_inRange hc hi]
  | false => simp [exec_tick_of_not_inRange hi, eq_comm]

/-! ### The scan order -/

/-- Both scan sequences visit each control exactly once. -/
theorem scanSequence_perm (o o' : ScanOrder) : (scanSequence o).Perm (scanSequence o') := by
  rw [← visitOrder_eq_scanSequence, ← visitOrder_eq_scanSequence]
  exact (List.perm_ext_iff_of_nodup (visitOrder_nodup o) (visitOrder_nodup o')).2
    fun k => iff_of_true (mem_visitOrder o k) (mem_visitOrder o' k)

theorem controlPackets_withScanOrder (inp : Snapshot) (s : State) (o : ScanOrder) :
    controlPackets inp (withScanOrder s o) = controlPackets inp s := by
  funext k
  cases k <;> rfl

/-- Settles O31: the closed forms under the two orders differ in the sequence of the packets only. -/
theorem scanOrderOnlyReordersPackets : Obligations.ScanOrderOnlyReordersPackets := by
  intro s inp o o' hc hi
  have hexec (o : ScanOrder) :
      exec (.tick inp) (withScanOrder s o) = .next ((withScanOrder s o).afterTick inp) :=
    exec_tick_of_inRange hc hi
  have htx (o : ScanOrder) : ((withScanOrder s o).afterTick inp).tx =
      s.tx ++ (scanSequence o).flatMap (controlPackets inp s) := by
    rw [State.afterTick_tx, controlPackets_withScanOrder]
    rfl
  exact ⟨_, _, _, _, hexec o, hexec o', htx o, htx o', (scanSequence_perm o o').flatMap_right _, rfl⟩

/-! ### Quiet ticks -/

theorem movedBeyond_eq_false_iff (c : Config) (v last : Nat) :
    movedBeyond c v last = false ↔ |(v : Int) - last| ≤ c.cf := by
  rw [← isSignificant_eq, isSignificant_eq_false_iff]

theorem movedBeyond_self (c : Config) (v : Nat) : movedBeyond c v v = false := by
  rw [← isSignificant_eq, isSignificant_self]

/-- No reading is beyond `CF` of the baseline it leaves (R103, R104). -/
theorem movedBeyond_newBaseline (c : Config) (v last : Nat) :
    movedBeyond c v (newBaseline c v last) = false := by
  unfold newBaseline
  split
  case isTrue => exact movedBeyond_self c v
  case isFalse h => exact Bool.eq_false_of_not_eq_true h

theorem quiet_iff_movedBeyond (s : State) (inp : Snapshot) :
    Quiet s inp ↔ inp.inRange s.cfg = true ∧ inp.upper = s.upperLast ∧ inp.lower = s.lowerLast ∧
      (∀ i, movedBeyond s.cfg (inp.sliderSample i) (s.sliderLast.get i) = false) ∧
      ∀ i, movedBeyond s.cfg (inp.knobSample i) (s.knobLast.get i) = false := by
  refine and_congr_right fun hi => ?_
  simp only [movedBeyond_eq_false_iff, sliderSample_cast hi, knobSample_cast hi]

theorem controlPackets_of_quiet {s : State} {inp : Snapshot} (h : Quiet s inp) (k : Control) :
    controlPackets inp s k = [] := by
  obtain ⟨-, hupper, hlower, hslider, hknob⟩ := (quiet_iff_movedBeyond s inp).1 h
  cases k with
  | upper i => simp [controlPackets, buttonPackets, hupper]
  | lower i => simp [controlPackets, buttonPackets, hlower]
  | slider i => exact if_neg (ne_true_of_eq_false (hslider i))
  | knob i => exact if_neg (ne_true_of_eq_false (hknob i))

/-- A quiet tick sends nothing and moves no register. -/
theorem State.afterTick_of_quiet {s : State} {inp : Snapshot} (h : Quiet s inp) :
    s.afterTick inp = s := by
  obtain ⟨-, hupper, hlower, hslider, hknob⟩ := (quiet_iff_movedBeyond s inp).1 h
  refine State.eq_of_fields rfl hupper hlower (Five.ext_get fun i => ?_) (Four.ext_get fun i => ?_)
    rfl ?_ rfl rfl rfl rfl rfl
  · simp [newBaseline, hslider i]
  · simp [newBaseline, hknob i]
  · simp [State.afterTick_tx, controlPackets_of_quiet h]

theorem exec_tick_of_quiet {s : State} {inp : Snapshot} (hc : s.cfg.admissible = true)
    (h : Quiet s inp) : exec (.tick inp) s = .next s := by
  rw [exec_tick_of_inRange hc h.1, State.afterTick_of_quiet h]

/-- What a tick reads is quiet in the state it reaches. -/
theorem quiet_afterTick {s : State} {inp : Snapshot} (hi : inp.inRange s.cfg = true) :
    Quiet (s.afterTick inp) inp :=
  (quiet_iff_movedBeyond _ _).2 ⟨hi, rfl, rfl,
    fun i => by rw [State.afterTick_sliderLast_get]; exact movedBeyond_newBaseline _ _ _,
    fun i => by rw [State.afterTick_knobLast_get]; exact movedBeyond_newBaseline _ _ _⟩

/-- Settles O34: a tick leaves a state in which its own readings are quiet. -/
theorem repeatedTickIsSilent : Obligations.RepeatedTickIsSilent := by
  intro inp s t hc h
  have hi : inp.inRange s.cfg = true := (execTick_eq_next.1 h).1
  obtain rfl : s.afterTick inp = t := by simpa [exec_tick_of_inRange hc hi] using h
  exact exec_tick_of_quiet hc (quiet_afterTick hi)

/-- A `TICK` request within the contract runs as its row. -/
theorem step_of_pending_tick {s : State} {inp : Snapshot} {rest : List Request}
    (hc : s.cfg.admissible = true) (hp : s.pending = .tick inp :: rest) :
    step s = exec (.tick inp) { s with pending := rest } := by
  simp [step, fetch_of_pending_cons hc hp, Request.action]

/-- Settles O33, by induction on the ticks asked for: a quiet one only takes its request, and the baselines
the next is compared with are the stored ones. -/
theorem quietTicksChangeNothing : Obligations.QuietTicksChangeNothing := by
  intro inps
  induction inps with
  | nil =>
    rintro s rest - - hp
    obtain rfl : s.pending = rest := hp
    rfl
  | cons inp inps ih =>
    intro s rest hc hq hp
    have hquiet : Quiet { s with pending := inps.map .tick ++ rest } inp :=
      hq inp List.mem_cons_self
    have hstep : step s = .next { s with pending := inps.map .tick ++ rest } :=
      (step_of_pending_tick hc hp).trans (exec_tick_of_quiet hc hquiet)
    rw [List.length_cons, run_of_step_next hstep]
    exact ih _ rest hc (fun inp' h => hq inp' (List.mem_cons_of_mem _ h)) rfl

end Sys2Proof.Machine
end

section
/-! PROOFS. The encoder (spec/42_encoder.md R120 to R125): its answers in and out of the domain, the TX
rows, the headers of the packets sent, and the inverse that makes it injective. -/

namespace Sys2Proof

theorem inEncodeDomain_eq_false_iff (ch a b : Nat) :
    inEncodeDomain ch a b = false ↔ 15 < ch ∨ 127 < a ∨ 127 < b := by
  rw [← Bool.not_eq_true, inEncodeDomain_iff]
  omega

namespace Machine

/-! ### The encoders and the TX rows (R120 to R122) -/

theorem encNoteOn_eq_error {ch a b : Nat} (h : inEncodeDomain ch a b = false) :
    encNoteOn ch a b = .error .encodeOutOfDomain := by
  simp [encNoteOn, h]

theorem encNoteOff_eq_error {ch a b : Nat} (h : inEncodeDomain ch a b = false) :
    encNoteOff ch a b = .error .encodeOutOfDomain := by
  simp [encNoteOff, h]

theorem encCc_eq_error {ch a b : Nat} (h : inEncodeDomain ch a b = false) :
    encCc ch a b = .error .encodeOutOfDomain := by
  simp [encCc, h]

/-- Settles O46: the domain decides between the table's packet and the refusal. -/
theorem encodersFollowTheEncodeTable : Obligations.EncodersFollowTheEncodeTable := by
  intro ch a b
  constructor
  · intro hch ha hb
    have hd : ch ≤ 15 ∧ a ≤ 127 ∧ b ≤ 127 := ⟨hch, ha, hb⟩
    exact ⟨encNoteOn_eq_ok.2 ⟨hd, rfl⟩, encNoteOff_eq_ok.2 ⟨hd, rfl⟩, encCc_eq_ok.2 ⟨hd, rfl⟩⟩
  · intro h
    have hd := (inEncodeDomain_eq_false_iff ch a b).2 h
    exact ⟨encNoteOn_eq_error hd, encNoteOff_eq_error hd, encCc_eq_error hd⟩

/-- A TX row whose event is encoded writes the packet to its output and nothing else (R125). -/
theorem exec_of_encEvent_ok {i : Instr} {e : MidiEvent} {p : Packet} (hi : txEvent i = some e)
    (he : encEvent e = .ok p) (s : State) : exec i s = .next (s.withEncoded p) := by
  rw [exec_of_txEvent hi, he, returnEncoded_ok]

theorem exec_of_encEvent_error {i : Instr} {e : MidiEvent} {r : Refusal} (hi : txEvent i = some e)
    (he : encEvent e = .error r) (s : State) : exec i s = .refused r := by
  rw [exec_of_txEvent hi, he, returnEncoded_error]

/-- Settles O6: each TX row answers as its event's encoder does. -/
theorem txRowsGiveTheEncodedPacket : Obligations.TxRowsGiveTheEncodedPacket := by
  intro s ch a b
  obtain ⟨hok, herror⟩ := encodersFollowTheEncodeTable ch a b
  constructor
  · intro hch ha hb
    obtain ⟨hon, hoff, hcc⟩ := hok hch ha hb
    exact ⟨exec_of_encEvent_ok rfl hon s, exec_of_encEvent_ok rfl hoff s,
      exec_of_encEvent_ok rfl hcc s⟩
  · intro h
    obtain ⟨hon, hoff, hcc⟩ := herror h
    exact ⟨exec_of_encEvent_error rfl hon s, exec_of_encEvent_error rfl hoff s,
      exec_of_encEvent_error rfl hcc s⟩

/-! ### The headers of the packets sent (R67, R123) -/

/-- The packet law as the conditions it tests (R67). -/
theorem sentPacketOk_iff (p : Packet) :
    sentPacketOk p = true ↔
      p.cable = 0x0#4 ∧ p.cin = p.kind ∧ (p.cin = 0x9#4 ∨ p.cin = 0x8#4 ∨ p.cin = 0xB#4) ∧
        p.data1.toNat ≤ 127 ∧ p.data2.toNat ≤ 127 := by
  simp [sentPacketOk, and_assoc, or_assoc]

/-- `t` has the packets of `s` in `tx`, then only packets that meet the packet law. -/
def SentSince (s t : State) : Prop :=
  ∃ l, t.tx = s.tx ++ l ∧ ∀ p ∈ l, sentPacketOk p = true

theorem SentSince.of_tx_eq {s t : State} (h : t.tx = s.tx) : SentSince s t :=
  ⟨[], by rw [h, List.append_nil], by simp⟩

theorem SentSince.of_tx_eq_append {s t : State} {p : Packet} (h : t.tx = s.tx ++ [p])
    (hp : sentPacketOk p = true) : SentSince s t :=
  ⟨[p], h, by simpa using hp⟩

theorem SentSince.trans {s t u : State} (h : SentSince s t) (k : SentSince t u) : SentSince s u := by
  obtain ⟨l, hl, hok⟩ := h
  obtain ⟨m, hm, hok'⟩ := k
  refine ⟨l ++ m, by rw [hm, hl, List.append_assoc], fun p hp => ?_⟩
  exact (List.mem_append.1 hp).elim (hok p) (hok' p)

/-- A control's step sends nothing, or one packet of an encoder. -/
theorem controlStep_sentSince {inp : Snapshot} {s t : State} {k : Control}
    (h : controlStep inp s k = .next t) : SentSince s t := by
  rcases controlStep_cases h with rfl | ⟨e, p, he, hstore⟩
  · exact .of_tx_eq rfl
  · have htx : t.tx = s.tx ++ [p] := by
      rcases hstore with ⟨row, i, b, rfl⟩ | ⟨i, rfl⟩ | ⟨i, rfl⟩ <;> simp
    exact .of_tx_eq_append htx (sentPacketOk_encEvent he)

/-- What any instruction adds to `tx` meets the packet law: a TX row and an `RX` add nothing, a tick
what its control steps send. -/
theorem exec_sentSince {i : Instr} {s t : State} (h : exec i s = .next t) : SentSince s t := by
  rcases instr_cases i with ⟨e, he⟩ | ⟨r, hr⟩ | ⟨inp, rfl⟩
  · obtain ⟨p, rfl⟩ := eq_withEncoded_of_txEvent he h
    exact .of_tx_eq rfl
  · obtain rfl := eq_rxResult_of_rxClass hr h
    exact .of_tx_eq (rxResult_frame r s).1.tx
  · have hsteps := (execTick_eq_next.1 h).2
    exact controlSteps_induct (P := SentSince s)
      (fun _ _ _ hk hu => hu.trans (controlStep_sentSince hk)) _ hsteps (.of_tx_eq rfl)

/-- Settles O7: the packet law gives the cable and the CIN, and each encoder's packet has the literal
header of its category. -/
theorem encodedHeaderIsItsCategory : Obligations.EncodedHeaderIsItsCategory := by
  constructor
  · intro e p he
    obtain ⟨hcable, hcin, -⟩ := (sentPacketOk_iff p).1 (sentPacketOk_encEvent he)
    refine ⟨hcable, hcin, ?_⟩
    cases e with
    | noteOn ch a b =>
      obtain ⟨-, rfl⟩ := encNoteOn_eq_ok.1 he
      exact show 0x09#8 &&& 0x0F#8 = 0x09#8 by decide
    | noteOff ch a b =>
      obtain ⟨-, rfl⟩ := encNoteOff_eq_ok.1 he
      exact show 0x08#8 &&& 0x0F#8 = 0x08#8 by decide
    | controlChange ch a b =>
      obtain ⟨-, rfl⟩ := encCc_eq_ok.1 he
      exact show 0x0B#8 &&& 0x0F#8 = 0x0B#8 by decide
  · intro i s t h
    obtain ⟨l, htx, hl⟩ := exec_sentSince h
    refine ⟨l, htx, fun p hp => ?_⟩
    obtain ⟨hcable, hcin, hcategory, -⟩ := (sentPacketOk_iff p).1 (hl p hp)
    exact ⟨hcable, hcin, hcategory⟩

/-! ### Injectivity (R124) -/

/-- Reading an encoder's packet as sent gives the TX row of its event: a left inverse of the encoder. -/
theorem decodeTx_bind_txEvent_of_encEvent {e : MidiEvent} {p : Packet} (h : encEvent e = .ok p) :
    (decodeTx p).bind txEvent = some e := by
  cases e with
  | noteOn ch a b =>
    obtain ⟨⟨hch, ha, hb⟩, rfl⟩ := encNoteOn_eq_ok.1 h
    rw [decodeTx_noteOn ch a b hch ha hb]
    rfl
  | noteOff ch a b =>
    obtain ⟨⟨hch, ha, hb⟩, rfl⟩ := encNoteOff_eq_ok.1 h
    rw [decodeTx_noteOff ch a b hch ha hb]
    rfl
  | controlChange ch a b =>
    obtain ⟨⟨hch, ha, hb⟩, rfl⟩ := encCc_eq_ok.1 h
    rw [decodeTx_cc ch a b hch ha hb]
    rfl

/-- Settles O8: two events with one packet are both what that packet decodes to. -/
theorem encodersAreJointlyInjective : Obligations.EncodersAreJointlyInjective := by
  intro e e' p h h'
  have hdecoded : some e = some e' :=
    (decodeTx_bind_txEvent_of_encEvent h).symm.trans (decodeTx_bind_txEvent_of_encEvent h')
  exact Option.some.inj hdecoded

end Machine

end Sys2Proof
end

section
/-! PROOFS. The rows of the decoder that have no effect (spec/43_decoder.md R132 to R135, R137 to R140,
R145, R146, R148): a word that matches a row's pattern is the packet that row is encoded as, and a class
that is no `Voice3` is only reported. -/

namespace Sys2Proof

/-! ### The word patterns -/

/-- A received packet is read as the row it is the packet of. -/
theorem decodeRx_of_encodePacket {i : Instr} {p : Packet} (hback : Laws.DecodesBack.Statement i)
    (hwf : i.wellFormed Config.reference = true) (he : encodePacket i = some (.rx, p)) :
    decodeRx p = i :=
  Except.ok.inj (hback _ hwf .rx p.bytes (by rw [encode, he]; rfl))

/-- A word that matches the pattern of CIN `k` is read as the row whose packets have that CIN. -/
theorem decodeRx_of_word (k : Nibble) {i : Instr} {p : Packet} {w : BitVec 32}
    (hback : Laws.DecodesBack.Statement i) (hwf : i.wellFormed Config.reference = true)
    (he : encodePacket i = some (.rx, rxPacket k p.body)) (hw : k.setWidth 32 <<< 24 = w)
    (h : p.toWord &&& 0x0F000000#32 = w) : decodeRx p = i := by
  obtain rfl : p.cin = k := (p.word_matches_cin k w hw).1 h
  rw [rxPacket_of_packet] at he
  exact decodeRx_of_encodePacket hback hwf he

/-- CIN 0 under a header that is not 0 leaves a cable that is not 0 (R133). -/
theorem Packet.cable_ne_zero {p : Packet} (hcin : p.cin = 0x0#4) (hz : p.header ≠ 0x00#8) :
    p.cable ≠ 0x0#4 :=
  fun hcable => hz (p.header_eq_zero.2 ⟨hcable, hcin⟩)

namespace Machine

/-! ### The rows -/

theorem exec_of_rxClass_empty {i : Instr} (h : rxClass i = some .empty) (s : State) :
    exec i s = .next { s with report := some .empty } :=
  exec_of_rxClass h s

theorem exec_of_rxClass_ignored {i : Instr} {reason : IgnoreReason} {cin : Nibble}
    (h : rxClass i = some (.ignored reason cin)) (s : State) :
    exec i s = .next { s with report := some (.ignored reason cin) } :=
  exec_of_rxClass h s

/-- Settles O11: the header test comes first, then the patterns of CIN 0 and CIN 1. -/
theorem emptyAndReservedRowsHaveNoEffect : Obligations.EmptyAndReservedRowsHaveNoEffect := by
  intro p st d1 d2 b s
  refine ⟨fun h => if_pos (p.word_matches_empty.1 h), fun h hz => ?cin0,
    decodeRx_of_word 0x1#4 (Laws.DecodesBack.rxCin1 _) rfl rfl (by decide),
    exec_of_rxClass_empty rfl s, exec_of_rxClass_empty rfl s,
    exec_of_rxClass_ignored rfl s, exec_of_rxClass_ignored rfl s⟩
  case cin0 =>
    have hcin : p.cin = 0x0#4 := (p.word_matches_cin 0x0#4 _ (by decide)).1 h
    have hwf : (Instr.rxCin0 p.body).wellFormed Config.reference = true :=
      bne_iff_ne.2 (Packet.cable_ne_zero hcin hz)
    exact decodeRx_of_word 0x0#4 (Laws.DecodesBack.rxCin0 _) hwf rfl (by decide) h

/-- Settles O12: each pattern is that of one CIN, and each class is an ignored one. -/
theorem shortMessageRowsHaveNoEffect : Obligations.ShortMessageRowsHaveNoEffect := fun _ _ s =>
  ⟨decodeRx_of_word 0x2#4 (Laws.DecodesBack.rxCin2 _) rfl rfl (by decide),
    decodeRx_of_word 0xC#4 (Laws.DecodesBack.rxCinC _) rfl rfl (by decide),
    decodeRx_of_word 0xD#4 (Laws.DecodesBack.rxCinD _) rfl rfl (by decide),
    decodeRx_of_word 0xF#4 (Laws.DecodesBack.rxCinF _) rfl rfl (by decide),
    exec_of_rxClass_ignored rfl s, exec_of_rxClass_ignored rfl s,
    exec_of_rxClass_ignored rfl s, exec_of_rxClass_ignored rfl s⟩

/-- Settles O13: each pattern is that of one CIN, and each class is an ignored one. -/
theorem sysExRowsHaveNoEffect : Obligations.SysExRowsHaveNoEffect := fun _ _ s =>
  ⟨decodeRx_of_word 0x4#4 (Laws.DecodesBack.rxCin4 _) rfl rfl (by decide),
    decodeRx_of_word 0x5#4 (Laws.DecodesBack.rxCin5 _) rfl rfl (by decide),
    decodeRx_of_word 0x6#4 (Laws.DecodesBack.rxCin6 _) rfl rfl (by decide),
    decodeRx_of_word 0x7#4 (Laws.DecodesBack.rxCin7 _) rfl rfl (by decide),
    exec_of_rxClass_ignored rfl s, exec_of_rxClass_ignored rfl s,
    exec_of_rxClass_ignored rfl s, exec_of_rxClass_ignored rfl s⟩

end Machine

end Sys2Proof
end

section
/-! PROOFS. The 3-byte rows and the semantic view (spec/43_decoder.md R136, R141 to R144, R147, R151,
R152): each row runs `LED_MAP` on its `Voice3`, and the view of an encoder's packet is its event. -/

namespace Sys2Proof.Machine

open Sys2Proof.Claims

/-! ### The view of a `Voice3` (R151) -/

theorem toEvent_of_not_sevenBit {v : Voice3} (h : 127 < v.data1.toNat ∨ 127 < v.data2.toNat) :
    toEvent v = none :=
  if_pos h

theorem toEvent_of_cin_ne {v : Voice3} (h9 : v.cin ≠ 0x9#4) (h8 : v.cin ≠ 0x8#4)
    (hB : v.cin ≠ 0xB#4) : toEvent v = none := by
  simp [toEvent, h9, h8, hB]

section SevenBit

variable {v : Voice3} {ch a b : Nat} (hchan : v.chan.toNat = ch) (h1 : v.data1.toNat = a)
  (h2 : v.data2.toNat = b) (ha : a ≤ 127) (hb : b ≤ 127)

include hchan h1 h2 ha hb

theorem toEvent_noteOn (hcin : v.cin = 0x9#4) : toEvent v = some (.noteOn ch a b) := by
  simp [toEvent, hcin, hchan, h1, h2, ha.not_gt, hb.not_gt]

theorem toEvent_noteOff (hcin : v.cin = 0x8#4) : toEvent v = some (.noteOff ch a b) := by
  simp [toEvent, hcin, hchan, h1, h2, ha.not_gt, hb.not_gt]

theorem toEvent_controlChange (hcin : v.cin = 0xB#4) :
    toEvent v = some (.controlChange ch a b) := by
  simp [toEvent, hcin, hchan, h1, h2, ha.not_gt, hb.not_gt]

end SevenBit

/-! ### The 3-byte rows -/

theorem rxClass_of_voiceRow {cin : Nibble} {b : RxBody} {i : Instr} (h : VoiceRow cin b i) :
    rxClass i = some (.voice3 (voice cin b)) := by
  cases h <;> rfl

/-- Settles O14: the pattern of each CIN, the class of each row, and the cases of `TO_EVENT`. -/
theorem voiceRowsRunTheLedMapper : Obligations.VoiceRowsRunTheLedMapper := by
  refine ⟨fun p => ?patterns, fun cin b i s h => exec_of_rxClass (rxClass_of_voiceRow h) s,
    fun b h1 h2 => ?views, fun cin b h => toEvent_of_not_sevenBit h,
    fun cin b h9 h8 hB => toEvent_of_cin_ne h9 h8 hB, fun b => ?noViews⟩
  case patterns =>
    exact ⟨decodeRx_of_word 0x3#4 (Laws.DecodesBack.rxCin3 _) rfl rfl (by decide),
      decodeRx_of_word 0x8#4 (Laws.DecodesBack.rxCin8 _) rfl rfl (by decide),
      decodeRx_of_word 0x9#4 (Laws.DecodesBack.rxCin9 _) rfl rfl (by decide),
      decodeRx_of_word 0xA#4 (Laws.DecodesBack.rxCinA _) rfl rfl (by decide),
      decodeRx_of_word 0xB#4 (Laws.DecodesBack.rxCinB _) rfl rfl (by decide),
      decodeRx_of_word 0xE#4 (Laws.DecodesBack.rxCinE _) rfl rfl (by decide)⟩
  case views =>
    exact ⟨toEvent_noteOn rfl rfl rfl h1 h2 rfl, toEvent_noteOff rfl rfl rfl h1 h2 rfl,
      toEvent_controlChange rfl rfl rfl h1 h2 rfl⟩
  case noViews =>
    have noView (k : Nibble) (hk : k ≠ 0x9#4 ∧ k ≠ 0x8#4 ∧ k ≠ 0xB#4) :
        toEvent (voice k b) = none := toEvent_of_cin_ne hk.1 hk.2.1 hk.2.2
    exact ⟨noView 0x3#4 (by decide), noView 0xA#4 (by decide), noView 0xE#4 (by decide)⟩

/-! ### The round trip of R152 -/

/-- A packet of the 3-byte category has the view of its `Voice3`. -/
theorem toEvent_decodeResult {p : Packet} (h : ignoreReason p.cin = none) :
    (decodeResult (some p)).toEvent = toEvent (voice p.cin p.body) := by
  rw [decodeResult_of_ignoreReason_none h]
  rfl

/-- The view of an encoder's packet is the event it was made from: a left inverse of the encoder. -/
theorem toEvent_decodeResult_of_encEvent {e : MidiEvent} {p : Packet} (h : encEvent e = .ok p) :
    (decodeResult (some p)).toEvent = some e := by
  cases e with
  | noteOn ch a b =>
    obtain ⟨⟨hch, ha, hb⟩, rfl⟩ := encNoteOn_eq_ok.1 h
    obtain ⟨-, hcin, -, hchan, h1, h2⟩ := noteOnPacket_fields ch a b hch ha hb
    rw [toEvent_decodeResult (ignoreReason_voice _ (by simp [hcin]))]
    exact toEvent_noteOn hchan h1 h2 ha hb hcin
  | noteOff ch a b =>
    obtain ⟨⟨hch, ha, hb⟩, rfl⟩ := encNoteOff_eq_ok.1 h
    obtain ⟨-, hcin, -, hchan, h1, h2⟩ := noteOffPacket_fields ch a b hch ha hb
    rw [toEvent_decodeResult (ignoreReason_voice _ (by simp [hcin]))]
    exact toEvent_noteOff hchan h1 h2 ha hb hcin
  | controlChange ch a b =>
    obtain ⟨⟨hch, ha, hb⟩, rfl⟩ := encCc_eq_ok.1 h
    obtain ⟨-, hcin, -, hchan, h1, h2⟩ := ccPacket_fields ch a b hch ha hb
    rw [toEvent_decodeResult (ignoreReason_voice _ (by simp [hcin]))]
    exact toEvent_controlChange hchan h1 h2 ha hb hcin

/-- Settles O9: in the domain each encoder gives a packet, and its view is the event. -/
theorem encodedEventsDecodeBack : Obligations.EncodedEventsDecodeBack := by
  intro ch a b hch ha hb
  obtain ⟨hon, hoff, hcc⟩ := (encodersFollowTheEncodeTable ch a b).1 hch ha hb
  exact ⟨⟨_, hon, toEvent_decodeResult_of_encEvent hon⟩,
    ⟨_, hoff, toEvent_decodeResult_of_encEvent hoff⟩,
    ⟨_, hcc, toEvent_decodeResult_of_encEvent hcc⟩⟩

end Sys2Proof.Machine
end

section
/-! PROOFS. What the result of an `RX` depends on (spec/43_decoder.md R149): its class and, through
`LED_MAP`, the LED buffer; the free value of 44_led_mapper.md R162 only for a large data2. -/

namespace Sys2Proof.Machine

open Sys2Proof.Claims

/-! ### Which instructions have a `Voice3` -/

theorem decodeResult_eq_voice3 {p : Packet} {v : Voice3} (h : decodeResult (some p) = .voice3 v) :
    ignoreReason p.cin = none ∧ v = voice p.cin p.body := by
  cases hr : ignoreReason p.cin with
  | none =>
    rw [decodeResult_of_ignoreReason_none hr] at h
    exact ⟨rfl, (DecodeResult.voice3.inj h).symm⟩
  | some reason =>
    rw [decodeResult_of_ignoreReason_some hr] at h
    split at h <;> cases h

theorem cin_of_ignoreReason_none : ∀ cin, ignoreReason cin = none →
    cin = 0x3#4 ∨ cin = 0x8#4 ∨ cin = 0x9#4 ∨ cin = 0xA#4 ∨ cin = 0xB#4 ∨ cin = 0xE#4 := by
  decide

theorem exists_voiceRow {cin : Nibble} (h : ignoreReason cin = none) (b : RxBody) :
    ∃ row, VoiceRow cin b row := by
  rcases cin_of_ignoreReason_none cin h with rfl | rfl | rfl | rfl | rfl | rfl
  exacts [⟨_, .cin3 b⟩, ⟨_, .cin8 b⟩, ⟨_, .cin9 b⟩, ⟨_, .cinA b⟩, ⟨_, .cinB b⟩, ⟨_, .cinE b⟩]

/-- Only a 3-byte row, or an `RX_POLL` of its packet, has a `Voice3` as its class. -/
theorem voiceRow_or_rxPoll_of_rxClass {i : Instr} {v : Voice3} (h : rxClass i = some (.voice3 v)) :
    ∃ cin b row, VoiceRow cin b row ∧ v = voice cin b ∧
      (i = row ∨ i = .rxPoll (some (rxPacket cin b))) := by
  cases i
  case rxPoll q =>
    cases q with
    | none => cases h
    | some p =>
      obtain ⟨hr, rfl⟩ := decodeResult_eq_voice3 (Option.some.inj h)
      obtain ⟨row, hrow⟩ := exists_voiceRow hr p.body
      exact ⟨p.cin, p.body, row, hrow, rfl, .inr (by rw [rxPacket_of_packet])⟩
  case rxCin3 b => cases h; exact ⟨_, b, _, .cin3 b, rfl, .inl rfl⟩
  case rxCin8 b => cases h; exact ⟨_, b, _, .cin8 b, rfl, .inl rfl⟩
  case rxCin9 b => cases h; exact ⟨_, b, _, .cin9 b, rfl, .inl rfl⟩
  case rxCinA b => cases h; exact ⟨_, b, _, .cinA b, rfl, .inl rfl⟩
  case rxCinB b => cases h; exact ⟨_, b, _, .cinB b, rfl, .inl rfl⟩
  case rxCinE b => cases h; exact ⟨_, b, _, .cinE b, rfl, .inl rfl⟩
  all_goals cases h

theorem isLargeVoice_of_rxClass {i : Instr} {v : Voice3} (h : rxClass i = some (.voice3 v))
    (hd : 127 < v.data2.toNat) : IsLargeVoice i := by
  obtain ⟨cin, b, row, hrow, rfl, hi⟩ := voiceRow_or_rxPoll_of_rxClass h
  exact ⟨cin, b, row, hrow, hd, hi⟩

/-! ### One class from two states -/

/-- The flushes `LED_MAP` asks for: one of the buffer it leaves if an entry matches, else none (R161). -/
def ledMapFlushes (v : Voice3) (s : State) : List (List Rgb) :=
  if ledAnyMatch s.cfg v.data1 then [(ledMap v s).led] else []

theorem ledMap_flushes_eq_append (v : Voice3) (s : State) :
    (ledMap v s).flushes = s.flushes ++ ledMapFlushes v s := by
  rw [ledMap_flushes, ledMapFlushes]
  split
  · rfl
  · exact (List.append_nil _).symm

/-- One class leaves one buffer and asks for the same flushes from states that agree on the configuration
and the buffer, and, for a `Voice3` of a large data2, on the count of free values. -/
theorem rxResult_led_flushes_congr {r : DecodeResult} {s s' : State} (hcfg : s.cfg = s'.cfg)
    (hled : s.led = s'.led)
    (hdraws : ∀ v, r = .voice3 v → 127 < v.data2.toNat → s.draws = s'.draws) :
    (rxResult r s).led = (rxResult r s').led ∧
      ∃ fl, (rxResult r s).flushes = s.flushes ++ fl ∧ (rxResult r s').flushes = s'.flushes ++ fl := by
  have no_flush (t : State) : t.flushes = t.flushes ++ [] := (List.append_nil _).symm
  cases r with
  | empty => exact ⟨hled, [], no_flush s, no_flush s'⟩
  | ignored reason cin => exact ⟨hled, [], no_flush s, no_flush s'⟩
  | voice3 v =>
    have hmap : (ledMap v s).led = (ledMap v s').led := ledMap_led_congr v s s' hcfg hled (hdraws v rfl)
    have hfl : ledMapFlushes v s = ledMapFlushes v s' := by rw [ledMapFlushes, ledMapFlushes, hcfg, hmap]
    exact ⟨hmap, ledMapFlushes v s, ledMap_flushes_eq_append v s, hfl ▸ ledMap_flushes_eq_append v s'⟩

/-- Settles O16: an `RX` runs to `rxResult` of its class, whose effect depends on the configuration and
the buffer alone unless the packet is a large `Voice3`. -/
theorem rxDependsOnPacketAndLedsOnly : Obligations.RxDependsOnPacketAndLedsOnly := by
  intro i s s' hi hcfg hled hdraws
  obtain ⟨r, hr⟩ := (isRx_iff_rxClass i).1 hi
  obtain ⟨hbuffer, fl, hfl, hfl'⟩ := rxResult_led_flushes_congr (r := r) hcfg hled fun v hv hd =>
    hdraws (isLargeVoice_of_rxClass (hr.trans (congrArg some hv)) hd)
  exact ⟨rxResult r s, rxResult r s', fl, exec_of_rxClass hr s, exec_of_rxClass hr s',
    by rw [rxResult_report, rxResult_report], hbuffer, hfl, hfl'⟩

end Sys2Proof.Machine
end

section
/-! PROOFS. The LED Feedback Mapper (spec/44_led_mapper.md R160 to R165) in the 3-byte rows: `LED_MAP`
entry by entry, what it draws, who else touches the buffer (nobody), and the loop from a pressed button
through the host's echo back to its LED. -/

namespace Sys2Proof.Machine

open Sys2Proof.Claims

/-! ### `LED_MAP` entry by entry -/

theorem matchesBefore_eq_length_takeWhile (c : Config) (data1 : Byte) (j : Fin 5) :
    matchesBefore c data1 j.val =
      ((([0, 1, 2, 3, 4] : List (Fin 5)).takeWhile (· ≠ j)).filter
        fun i => c.upperId.get i == data1.toNat).length := by
  have hscan : ([0, 1, 2, 3, 4] : List (Fin 5)).takeWhile (· ≠ j) =
      (List.finRange 5).filter fun i => i.val < j.val := by
    revert j
    decide
  rw [hscan, List.filter_filter, matchesBefore]
  exact congrArg List.length (List.filter_congr fun i _ => Bool.and_comm _ _)

theorem matchesBefore_le (c : Config) (data1 : Byte) (j : Nat) : matchesBefore c data1 j ≤ 5 :=
  (List.length_filter_le _ _).trans_eq (List.length_finRange)

/-- A matching entry holds the green of a 7-bit value, or its own draw in scan order (R160, R162). -/
theorem ledMap_led_of_match {v : Voice3} {s : State} {j : Fin 5} (hl : j.val < s.led.length)
    (hj : s.cfg.upperId.get j = v.data1.toNat) :
    (ledMap v s).led[j.val]? =
      some (if v.data2.toNat ≤ 127 then ⟨0#8, BitVec.ofNat 8 (2 * v.data2.toNat), 0#8⟩
        else Config.anyRgb (s.draws + matchesBefore s.cfg v.data1 j.val)) := by
  have hscan : ∀ j : Fin 5, j ∈ ([0, 1, 2, 3, 4] : List (Fin 5)) := by decide
  rw [ledMap_led, ledVisits_led_match _ _ _ (by decide) s j (hscan j) hl hj,
    matchesBefore_eq_length_takeWhile]

theorem ledMap_led_of_sevenBit {v : Voice3} {s : State} {j : Fin 5} (hl : j.val < s.led.length)
    (hj : s.cfg.upperId.get j = v.data1.toNat) (hd : v.data2.toNat ≤ 127) :
    (ledMap v s).led[j.val]? = some ⟨0#8, BitVec.ofNat 8 (2 * v.data2.toNat), 0#8⟩ := by
  rw [ledMap_led_of_match hl hj, if_pos hd]

theorem ledMap_led_of_no_match {v : Voice3} {s : State} {k : Nat}
    (h : ∀ j : Fin 5, j.val = k → s.cfg.upperId.get j ≠ v.data1.toNat) :
    (ledMap v s).led[k]? = s.led[k]? := by
  rw [ledMap_led, ledVisits_led_no_match _ _ _ s k h]

theorem ledMap_flushes_of_match {v : Voice3} {s : State}
    (h : ∃ j, s.cfg.upperId.get j = v.data1.toNat) :
    (ledMap v s).flushes = s.flushes ++ [(ledMap v s).led] := by
  rw [ledMap_flushes, if_pos ((ledAnyMatch_iff _ _).2 h)]

/-- The count moves past one draw for each matching entry, and not at all for a 7-bit value (R162). -/
theorem ledMap_draws_eq (v : Voice3) (s : State) :
    (ledMap v s).draws =
      if v.data2.toNat ≤ 127 then s.draws else s.draws + matchesBefore s.cfg v.data1 5 := by
  rw [ledMap_draws, ledVisits_draws]
  rfl

/-- For a 7-bit value a second `LED_MAP` finds the buffer as it would leave it (R165 (c)). -/
theorem ledMap_led_idem {v : Voice3} {s t : State} (hd : v.data2.toNat ≤ 127)
    (hcfg : t.cfg = s.cfg) (hled : t.led = (ledMap v s).led) : (ledMap v t).led = t.led := by
  have hlen : t.led.length = s.led.length := hled ▸ (ledMap_frame v s).2.2.1
  refine List.ext_getElem? fun k => ?_
  by_cases hk : ∃ j : Fin 5, j.val = k ∧ s.cfg.upperId.get j = v.data1.toNat
  · obtain ⟨j, rfl, hj⟩ := hk
    by_cases hl : j.val < s.led.length
    · rw [ledMap_led_of_sevenBit (hlen ▸ hl) (hcfg ▸ hj) hd, hled, ledMap_led_of_sevenBit hl hj hd]
    · rw [List.getElem?_eq_none (by rw [(ledMap_frame v t).2.2.1]; omega),
        List.getElem?_eq_none (by omega)]
  · exact ledMap_led_of_no_match fun j hjk hj => hk ⟨j, hjk, hcfg ▸ hj⟩

/-! ### The 3-byte rows -/

/-- A row, or a poll, of a `Voice3` runs `LED_MAP` and reports its class (R130). -/
theorem exec_of_rxClass_voice3 {i : Instr} {v : Voice3} (h : rxClass i = some (.voice3 v)) (s : State) :
    exec i s = .next ((ledMap v s).withReport (.voice3 v)) :=
  exec_of_rxClass h s

theorem exec_of_voiceRow {cin : Nibble} {b : RxBody} {i : Instr} (h : VoiceRow cin b i) (s : State) :
    exec i s = .next ((ledMap (voice cin b) s).withReport (.voice3 (voice cin b))) :=
  exec_of_rxClass_voice3 (rxClass_of_voiceRow h) s

/-- An `RX` that reaches a state differs from the one before in four fields only. -/
theorem RxFrame.eq_with {s t : State} (h : RxFrame s t) :
    t = { s with led := t.led, flushes := t.flushes, report := t.report, draws := t.draws } :=
  State.eq_of_fields h.cfg h.upperLast h.lowerLast h.sliderLast h.knobLast rfl h.tx rfl rfl h.encoded
    rfl h.pending

/-- Settles O17: the row runs `LED_MAP`, whose effect is known entry by entry. -/
theorem voiceRowsWriteEveryMatchingLed : Obligations.VoiceRowsWriteEveryMatchingLed := by
  intro cin b i s hrow hled
  obtain ⟨hframe, -, hlen, -⟩ := rxResult_frame (.voice3 (voice cin b)) s
  refine ⟨_, exec_of_voiceRow hrow s, fun j hj => ?_, fun k hk => ledMap_led_of_no_match hk, hlen,
    fun h => ledMap_flushes_of_match (v := voice cin b) h, fun h => ?_, hframe.eq_with⟩
  · have hmatch := ledMap_led_of_match (v := voice cin b) (j.isLt.trans_le hled) hj
    split
    case isTrue hd => exact hmatch.trans (congrArg some (if_pos hd))
    case isFalse => exact ⟨_, hmatch⟩
  · rw [State.withReport_flushes, ledMap_no_match _ s h]

/-- Settles O18: a matching entry's draw is numbered by the matching entries scanned before it. -/
theorem largeValuesDrawAFreshColourForEachWrite :
    Obligations.LargeValuesDrawAFreshColourForEachWrite := by
  intro cin b i s hrow hled
  have hdraws := ledMap_draws_eq (voice cin b) s
  refine ⟨_, exec_of_voiceRow hrow s, fun hd => ⟨fun j hj => ?_, hdraws.trans (if_neg hd.not_ge)⟩,
    fun hd => hdraws.trans (if_pos hd)⟩
  exact (ledMap_led_of_match (v := voice cin b) (j.isLt.trans_le hled) hj).trans
    (congrArg some (if_neg hd.not_ge))

/-- Settles O19: without a match `LED_MAP` answers the state it was given. -/
theorem unmatchedVoiceIsDropped : Obligations.UnmatchedVoiceIsDropped := by
  intro cin b i s hrow h
  rw [exec_of_voiceRow hrow, ledMap_no_match _ s h]
  rfl

/-- Settles O21: the second run finds the buffer as `LED_MAP` leaves it, and flushes it once more. -/
theorem repeatedVoiceLeavesTheLeds : Obligations.RepeatedVoiceLeavesTheLeds := by
  intro cin b i s t hrow hd h
  obtain rfl := eq_rxResult_of_rxClass (rxClass_of_voiceRow hrow) h
  have hcfg := (rxResult_frame (.voice3 (voice cin b)) s).1.cfg
  have hidem := ledMap_led_idem (v := voice cin b) hd hcfg rfl
  refine ⟨_, exec_of_voiceRow hrow _, hidem, fun hmatch => ?_⟩
  have hfirst := ledMap_flushes_of_match (v := voice cin b) hmatch
  have hsecond := ledMap_flushes_of_match (v := voice cin b) (hcfg ▸ hmatch)
  rw [hidem] at hsecond
  rw [State.withReport_flushes, hsecond]
  simp [rxResult, hfirst]

/-! ### Who touches the LED buffer -/

theorem exec_tick_frame {inp : Snapshot} {s t : State} (h : exec (.tick inp) s = .next t) :
    TickFrame s t :=
  controlSteps_frame (execTick_eq_next.1 h).2

/-- An `RX` that changes the buffer or the flush log is of a `Voice3` with a matching entry (R163, R164). -/
theorem matching_voice3_of_rxResult_changed {r : DecodeResult} {s : State}
    (h : (rxResult r s).led ≠ s.led ∨ (rxResult r s).flushes ≠ s.flushes) :
    ∃ v, r = .voice3 v ∧ ∃ j, s.cfg.upperId.get j = v.data1.toNat := by
  cases r with
  | empty => simp [rxResult] at h
  | ignored reason cin => simp [rxResult] at h
  | voice3 v =>
    refine ⟨v, rfl, ?_⟩
    by_contra hno
    simp [rxResult, ledMap_no_match v s (not_exists.1 hno)] at h

/-- Settles O20: a TX row and a tick touch neither, and an `RX` only as a matching `Voice3`. -/
theorem onlyMatchingVoiceChangesLeds : Obligations.OnlyMatchingVoiceChangesLeds := by
  intro i s t h
  rcases instr_cases i with ⟨e, he⟩ | ⟨r, hr⟩ | ⟨inp, rfl⟩
  · obtain ⟨p, rfl⟩ := eq_withEncoded_of_txEvent he h
    exact ⟨fun hne => by simp at hne, fun _ _ => rfl⟩
  · obtain rfl := eq_rxResult_of_rxClass hr h
    obtain ⟨-, -, -, hupper⟩ := rxResult_frame r s
    refine ⟨fun hne => ?_, hupper⟩
    obtain ⟨v, rfl, hmatch⟩ := matching_voice3_of_rxResult_changed hne
    obtain ⟨cin, b, row, hrow, rfl, hi⟩ := voiceRow_or_rxPoll_of_rxClass hr
    exact ⟨cin, b, row, hrow, hi, hmatch⟩
  · have hframe := exec_tick_frame h
    exact ⟨fun hne => by simp [hframe.led, hframe.flushes] at hne, fun _ _ => by rw [hframe.led]⟩

/-! ### The free values (R162) -/

/-- What an instruction may do with free values: draw at most five, in order, and change an LED entry
only to the green of a 7-bit value or to a value it has drawn itself. -/
structure FreshDraws (s t : State) : Prop where
  le : s.draws ≤ t.draws
  le_add_five : t.draws ≤ s.draws + 5
  changed : ∀ k : Nat, t.led[k]? ≠ s.led[k]? →
    (∃ x : Nat, x ≤ 127 ∧ t.led[k]? = some (⟨0#8, BitVec.ofNat 8 (2 * x), 0#8⟩ : Rgb)) ∨
    ∃ n, s.draws ≤ n ∧ n < t.draws ∧ t.led[k]? = some (Config.anyRgb n)

theorem FreshDraws.of_eq {s t : State} (hled : t.led = s.led) (hdraws : t.draws = s.draws) :
    FreshDraws s t :=
  ⟨hdraws.ge, by omega, fun k hk => absurd (by rw [hled]) hk⟩

theorem ledMap_freshDraws (v : Voice3) (s : State) : FreshDraws s (ledMap v s) := by
  have hdraws := ledMap_draws_eq v s
  have hle := matchesBefore_le s.cfg v.data1 5
  refine ⟨?_, ?_, ?_⟩
  · split at hdraws <;> omega
  · split at hdraws <;> omega
  · rw [ledMap_led, ledMap_draws]
    exact ledVisits_changed _ _ _ s

theorem exec_freshDraws {i : Instr} {s t : State} (h : exec i s = .next t) : FreshDraws s t := by
  rcases instr_cases i with ⟨e, he⟩ | ⟨r, hr⟩ | ⟨inp, rfl⟩
  · obtain ⟨p, rfl⟩ := eq_withEncoded_of_txEvent he h
    exact .of_eq rfl rfl
  · obtain rfl := eq_rxResult_of_rxClass hr h
    cases r with
    | empty => exact .of_eq rfl rfl
    | ignored reason cin => exact .of_eq rfl rfl
    | voice3 v =>
      obtain ⟨hle, hadd, hchanged⟩ := ledMap_freshDraws v s
      exact ⟨hle, hadd, hchanged⟩
  · have hframe := exec_tick_frame h
    exact .of_eq hframe.led hframe.draws

/-- Settles O47: an idle step and `RESET` draw nothing, and an instruction only forward. -/
theorem freeValuesAreNeverDrawnTwice : Obligations.FreeValuesAreNeverDrawnTwice := by
  intro s t h
  rcases step_eq_next h with ⟨-, rfl⟩ | ⟨q, rest, hp, -, ⟨-, rfl⟩ | ⟨i, hq, hexec⟩⟩
  case inl => exact ⟨le_rfl, by omega, fun _ _ => rfl, fun _ hk => absurd rfl hk⟩
  case inr.inl =>
    exact ⟨le_rfl, Nat.le_add_right _ _, fun _ _ => rfl, fun _ _ => .inl rfl⟩
  case inr.inr =>
    obtain ⟨hle, hadd, hchanged⟩ := exec_freshDraws hexec
    refine ⟨hle, hadd, fun rest' hreset => ?_, fun k hk => .inr (hchanged k hk)⟩
    obtain ⟨rfl, -⟩ := List.cons.inj (hp.symm.trans hreset)
    cases hq

/-! ### From a pressed button to its LED -/

theorem flatMap_eq_of_forall_ne {α β : Type} {l : List α} {a : α} {f : α → List β} (hn : l.Nodup)
    (ha : a ∈ l) (h : ∀ b, b ≠ a → f b = []) : l.flatMap f = f a := by
  obtain ⟨l₁, l₂, rfl⟩ := List.append_of_mem ha
  have hne : ∀ b ∈ l₁ ++ l₂, f b = [] := fun b hb =>
    h b fun e => (List.nodup_middle.1 hn).notMem (e ▸ hb)
  obtain ⟨h₁, h₂⟩ := List.forall_mem_append.1 hne
  simp [List.flatMap_eq_nil_iff.2 h₁, List.flatMap_eq_nil_iff.2 h₂]

/-- A reading that is quiet but for one upper button asks for that button's packets alone. -/
theorem controlPackets_of_quiet_but_upper {s : State} {inp : Snapshot} {i : Fin 5} {b : Bit}
    (h : Quiet s { inp with upper := inp.upper.set i b }) {k : Control} (hk : k ≠ .upper i) :
    controlPackets inp s k = [] := by
  rw [← controlPackets_of_quiet h k]
  cases k with
  | upper j =>
    have hj : j ≠ i := fun e => hk (e ▸ rfl)
    simp [controlPackets, Five.get_set, hj]
  | lower j => rfl
  | slider j => rfl
  | knob j => rfl

theorem afterTick_tx_of_quiet_but_upper {s : State} {inp : Snapshot} {i : Fin 5} {b : Bit}
    (h : Quiet s { inp with upper := inp.upper.set i b }) :
    (s.afterTick inp).tx = s.tx ++ controlPackets inp s (.upper i) := by
  rw [State.afterTick_tx, ← visitOrder_eq_scanSequence,
    flatMap_eq_of_forall_ne (visitOrder_nodup _) (mem_visitOrder _ (.upper i))
      fun k hk => controlPackets_of_quiet_but_upper h hk]

/-- A newly pressed upper button asks for one packet, the Note On of its identifier (R102). -/
theorem exists_controlPackets_of_pressed {s : State} {inp : Snapshot} {i : Fin 5}
    (hid : s.cfg.upperId.get i ≤ 127) (hlast : s.upperLast.get i = 1#1)
    (hpressed : inp.upper.get i = 0#1) :
    ∃ p, controlPackets inp s (.upper i) = [p] ∧ p.cin = 0x9#4 ∧
      p.data1.toNat = s.cfg.upperId.get i ∧ p.data2.toNat = Config.velOn := by
  have hchanged : inp.upper.get i ≠ s.upperLast.get i := by simp [hlast, hpressed]
  obtain ⟨-, hcin, -, -, h1, h2⟩ := noteOnPacket_fields Config.ch _ Config.velOn (by decide) hid
    (by decide)
  refine ⟨noteOnPacket Config.ch (s.cfg.upperId.get i) Config.velOn, ?_, hcin, h1, h2⟩
  rw [controlPackets, buttonPackets_of_ne _ hchanged, if_pos hpressed]
  rfl

theorem rxClass_rxPoll_of_ignoreReason_none {p : Packet} (h : ignoreReason p.cin = none) :
    rxClass (.rxPoll (some p)) = some (.voice3 (voice p.cin p.body)) :=
  congrArg some (decodeResult_of_ignoreReason_none h)

/-- A 7-bit value on an identifier no other button has lights that button's LED and no other (R160). -/
theorem ledMap_led_of_distinct {v : Voice3} {s : State} {i : Fin 5} {x : Nat}
    (hdistinct : ∀ j, s.cfg.upperId.get j = s.cfg.upperId.get i → j = i) (hl : i.val < s.led.length)
    (h1 : v.data1.toNat = s.cfg.upperId.get i) (h2 : v.data2.toNat = x) (hx : x ≤ 127) (k : Nat) :
    (ledMap v s).led[k]? =
      if k = i.val then some ⟨0#8, BitVec.ofNat 8 (2 * x), 0#8⟩ else s.led[k]? := by
  subst h2
  split
  case isTrue hk =>
    subst hk
    exact ledMap_led_of_sevenBit hl h1.symm hx
  case isFalse hk =>
    refine ledMap_led_of_no_match fun j hjk hj => hk ?_
    rw [← hjk, hdistinct j (hj.trans h1)]

/-- Settles O45: the tick sends the Note On of button `i` alone; received, its identifier matches entry
`i` alone, and its velocity 127 is green 254. -/
theorem echoedPressLightsItsLed : Obligations.EchoedPressLightsItsLed := by
  intro s inp i hinv hi hdistinct hlast hquiet hpressed
  obtain ⟨hc, -⟩ := s.cfg.wf_iff.1 hinv.cfg_wf
  obtain ⟨-, hid, -, hnled⟩ := s.cfg.admissible_iff.1 hc
  have hl : i.val < s.led.length := by
    rw [hinv.led_length]
    omega
  obtain ⟨p, hp, hcin, h1, h2⟩ := exists_controlPackets_of_pressed (hid i) hlast hpressed
  have hvoice := rxClass_rxPoll_of_ignoreReason_none
    (ignoreReason_voice p.cin (.inr (.inr (.inl hcin))))
  have hled := ledMap_led_of_distinct (v := voice p.cin p.body) (s := s.afterTick inp) hdistinct hl
    h1 h2 (by decide)
  have hflush := ledMap_flushes_of_match (v := voice p.cin p.body) (s := s.afterTick inp)
    ⟨i, h1.symm⟩
  exact ⟨_, p, _, exec_tick_of_inRange hc hi, hp ▸ afterTick_tx_of_quiet_but_upper hquiet,
    exec_of_rxClass_voice3 hvoice _, hled, hflush⟩

end Sys2Proof.Machine
end

section
/-! PROOFS. Which runs are refused (spec/60_exceptions.md R171, R173; spec/70_reset_and_hazards.md section 1):
what a step makes of a request that keeps the contract and of one that breaks it, and a run by its queue. -/

namespace Sys2Proof.Machine

open Sys2Proof.Claims

/-! ### One instruction -/

/-- No instruction that reaches a state changes the configuration or the queue (R191). -/
theorem exec_keeps_cfg_and_pending {i : Instr} {s t : State} (h : exec i s = .next t) :
    t.cfg = s.cfg ∧ t.pending = s.pending := by
  rcases instr_cases i with ⟨e, he⟩ | ⟨r, hr⟩ | ⟨inp, rfl⟩
  · obtain ⟨p, rfl⟩ := eq_withEncoded_of_txEvent he h
    exact ⟨rfl, rfl⟩
  · obtain rfl := eq_rxResult_of_rxClass hr h
    have hframe := (rxResult_frame r s).1
    exact ⟨hframe.cfg, hframe.pending⟩
  · have hframe := exec_tick_frame h
    exact ⟨hframe.cfg, hframe.pending⟩

/-- Whatever four bytes decode to completes: a TX row's operands are then in the encoder's domain, and an
`RX` row is never refused. -/
theorem exists_exec_of_decode_ok {d : Direction} {bs : List Byte} {i : Instr}
    (h : decode d bs = .ok i) (s : State) : ∃ t, exec i s = .next t := by
  obtain ⟨p, -, ⟨-, rfl⟩ | ⟨-, hi⟩⟩ := decode_ok h
  · exact ⟨_, exec_decodeRx p s⟩
  · obtain ⟨ch, a, b, hch, ha, hb, hrow⟩ := decodeTx_some hi
    obtain ⟨hon, hoff, hcc⟩ := (txRowsGiveTheEncodedPacket s ch a b).1 hch ha hb
    rcases hrow with ⟨rfl, -⟩ | ⟨rfl, -⟩ | ⟨rfl, -⟩
    · exact ⟨_, hon⟩
    · exact ⟨_, hoff⟩
    · exact ⟨_, hcc⟩

/-! ### One request -/

/-- A request that keeps the contract asks for `RESET` or for an instruction that completes. -/
theorem action_of_breach_eq_none {q : Request} {s : State} (hc : s.cfg.admissible = true)
    (hb : breach s.cfg q = none) :
    q.action = .reset ∨ ∃ i t, q.action = .run i ∧ exec i s = .next t := by
  cases q with
  | reset => exact .inl rfl
  | rx p => exact .inr ⟨.rxPoll p, _, rfl, exec_of_rxClass rfl s⟩
  | tick inp =>
    have hi : inp.inRange s.cfg = true := by simpa [breach] using hb
    exact .inr ⟨.tick inp, _, rfl, exec_tick_of_inRange hc hi⟩
  | wire d bs =>
    cases hd : decode d bs with
    | ok i =>
      obtain ⟨t, ht⟩ := exists_exec_of_decode_ok hd s
      exact .inr ⟨i, t, by simp [Request.action, hd], ht⟩
    | error e => simp [breach, hd] at hb

/-- Under a configuration within the contract a step is what the oldest request asks for, in the state
where that request has been taken. -/
theorem step_of_pending_cons {s : State} {q : Request} {rest : List Request}
    (hc : s.cfg.admissible = true) (hp : s.pending = q :: rest) :
    (q.action = .reset → step s = .next ({ s with pending := rest } : State).applyReset) ∧
    (∀ i, q.action = .run i → step s = exec i { s with pending := rest }) ∧
    ∀ r, q.action = .refuse r → step s = .refused r := by
  have hf := fetch_of_pending_cons hc hp
  exact ⟨fun ha => by simp [step, hf, ha], fun i ha => by simp [step, hf, ha],
    fun r ha => by simp [step, hf, ha]⟩

/-- A request that keeps the contract is taken and run to a next state, under the same configuration. -/
theorem step_of_breach_eq_none {s : State} {q : Request} {rest : List Request}
    (hc : s.cfg.admissible = true) (hp : s.pending = q :: rest) (hb : breach s.cfg q = none) :
    ∃ t, step s = .next t ∧ t.cfg = s.cfg ∧ t.pending = rest := by
  obtain ⟨hreset, hrun, -⟩ := step_of_pending_cons hc hp
  rcases action_of_breach_eq_none (s := { s with pending := rest }) hc hb with ha | ⟨i, t, ha, ht⟩
  · exact ⟨_, hreset ha, rfl, rfl⟩
  · obtain ⟨hcfg, hpending⟩ := exec_keeps_cfg_and_pending ht
    exact ⟨t, (hrun i ha).trans ht, hcfg, hpending⟩

/-- A request that breaks the contract is refused for the condition it breaks (R171). -/
theorem step_of_breach_eq_some {s : State} {q : Request} {rest : List Request} {r : Refusal}
    (hc : s.cfg.admissible = true) (hp : s.pending = q :: rest) (hb : breach s.cfg q = some r) :
    step s = .refused r := by
  cases q with
  | reset => cases hb
  | rx p => cases hb
  | tick inp =>
    obtain ⟨hi, rfl⟩ : inp.inRange s.cfg = false ∧ .analogOutOfRange = r := by
      simpa [breach] using hb
    exact (step_of_pending_tick hc hp).trans (exec_tick_of_not_inRange hi)
  | wire d bs =>
    cases hd : decode d bs with
    | ok i => simp [breach, hd] at hb
    | error e =>
      obtain rfl : .undecodable e = r := by simpa [breach, hd] using hb
      obtain ⟨-, -, hrefuse⟩ := step_of_pending_cons hc hp
      exact hrefuse _ (by simp [Request.action, hd])

theorem step_of_pending_nil {s : State} (hp : s.pending = []) : step s = .next s := by
  simp [step, fetch, hp]

/-- A configuration outside the contract refuses every request, for its own reason (R171). -/
theorem exists_step_refused_of_not_admissible {s : State} (hc : s.cfg.admissible = false)
    (hp : s.pending ≠ []) : ∃ r, step s = .refused r := by
  rcases fetch_cases s with ⟨hnil, -⟩ | ⟨q, rest, r, -, -, hf⟩ | ⟨q, rest, -, hadm, -⟩
  · exact absurd hnil hp
  · exact ⟨r, by simp [step, hf]⟩
  · simp [hadm] at hc

/-! ### A run -/

/-- A run of `k` steps is refused exactly for the first breach among its `k` oldest requests. -/
theorem run_eq_refused_iff (k : Nat) (s : State) (r : Refusal) (hc : s.cfg.admissible = true) :
    Host.Core.run Sys2Proof.core k s = .refused r ↔
      (s.pending.take k).findSome? (breach s.cfg) = some r := by
  induction k generalizing s with
  | zero => simp [Host.Core.run]
  | succ k ih =>
    cases hp : s.pending with
    | nil =>
      rw [run_of_step_next (step_of_pending_nil hp), ih s hc]
      simp [hp]
    | cons q rest =>
      cases hb : breach s.cfg q with
      | none =>
        obtain ⟨t, hstep, hcfg, hpending⟩ := step_of_breach_eq_none hc hp hb
        rw [run_of_step_next hstep, ih t (hcfg ▸ hc), hcfg, hpending]
        simp [hb]
      | some r' =>
        rw [run_of_step_refused (step_of_breach_eq_some hc hp hb), List.take_succ_cons,
          List.findSome?_cons, hb, Option.some.injEq]
        exact ⟨Host.Outcome.refused.inj, congrArg _⟩

/-- Settles O48: by induction on the steps, each taking one request; a broken configuration refuses the
first. -/
theorem refusedRunsStayRefused : Obligations.RefusedRunsStayRefused := by
  refine ⟨run_eq_refused_iff, fun s hc hp => ?_⟩
  obtain ⟨r, hr⟩ := exists_step_refused_of_not_admissible hc hp
  exact ⟨r, run_of_step_refused hr⟩

end Sys2Proof.Machine
end

section
/-! PROOFS. What holds between any two operations (spec/70_reset_and_hazards.md R191, R196, R200): the
configuration is the one before, the LED buffer is what the driver was last handed, and a request within
the contract completes. -/

namespace Sys2Proof.Machine

open Sys2Proof.Claims

/-! ### The LED laws (R165 (a), R196) -/

/-- An `RX` leaves the buffer and the flush log alone, or flushes the buffer it leaves (R161, R163). -/
theorem rxResult_led_flushes_cases (r : DecodeResult) (s : State) :
    ((rxResult r s).led = s.led ∧ (rxResult r s).flushes = s.flushes) ∨
      (rxResult r s).flushes = s.flushes ++ [(rxResult r s).led] := by
  refine or_iff_not_imp_left.2 fun hchanged => ?_
  obtain ⟨v, rfl, hmatch⟩ := matching_voice3_of_rxResult_changed (not_and_or.1 hchanged)
  exact ledMap_flushes_of_match hmatch

/-- The LED laws speak of the configuration, the buffer and the flush log only. -/
theorem State.LedInv.of_eq {s t : State} (h : s.LedInv) (hcfg : t.cfg = s.cfg) (hled : t.led = s.led)
    (hflushes : t.flushes = s.flushes) : t.LedInv where
  handed := by rw [State.lastHanded, hled, hflushes, hcfg, h.handed, State.lastHanded]
  upper_entries i hi := by rw [hled, hcfg, h.upper_entries i hi]

theorem State.lastHanded_of_flushes_eq_append {t : State} {fl : List (List Rgb)} {f : List Rgb}
    (h : t.flushes = fl ++ [f]) : t.lastHanded = f := by
  simp [State.lastHanded, h]

theorem applyReset_ledInv (s : State) : s.applyReset.LedInv :=
  ⟨rfl, fun _ _ => rfl⟩

theorem rxResult_ledInv (r : DecodeResult) {s : State} (h : s.LedInv) : (rxResult r s).LedInv := by
  obtain ⟨hframe, -, -, hupper⟩ := rxResult_frame r s
  rcases rxResult_led_flushes_cases r s with ⟨hled, hflushes⟩ | hflushed
  · exact h.of_eq hframe.cfg hled hflushes
  · exact ⟨(State.lastHanded_of_flushes_eq_append hflushed).symm,
      fun i hi => by rw [hupper i hi, hframe.cfg, h.upper_entries i hi]⟩

theorem exec_ledInv {i : Instr} {s t : State} (h : s.LedInv) (hexec : exec i s = .next t) :
    t.LedInv := by
  rcases instr_cases i with ⟨e, he⟩ | ⟨r, hr⟩ | ⟨inp, rfl⟩
  · obtain ⟨p, rfl⟩ := eq_withEncoded_of_txEvent he hexec
    exact h.of_eq rfl rfl rfl
  · obtain rfl := eq_rxResult_of_rxClass hr hexec
    exact rxResult_ledInv r h
  · have hframe := exec_tick_frame hexec
    exact h.of_eq hframe.cfg hframe.led hframe.flushes

/-- Settles O43: `RESET` establishes the laws, and an instruction changes the buffer only to flush it. -/
theorem stepKeepsTheLedLaws : Obligations.StepKeepsTheLedLaws := by
  intro s t h hstep
  rcases step_eq_next hstep with ⟨-, rfl⟩ | ⟨q, rest, -, -, ⟨-, rfl⟩ | ⟨i, -, hexec⟩⟩
  · exact h
  · exact applyReset_ledInv _
  · have htaken : ({ s with pending := rest } : State).LedInv := h.of_eq rfl rfl rfl
    exact exec_ledInv htaken hexec

/-! ### The configuration (R191) -/

/-- Settles O38: neither an idle step, nor `RESET`, nor an instruction writes it. -/
theorem configurationNeverChanges : Obligations.ConfigurationNeverChanges := by
  intro s t h
  rcases step_eq_next h with ⟨-, rfl⟩ | ⟨q, rest, -, -, ⟨-, rfl⟩ | ⟨i, -, hexec⟩⟩
  · rfl
  · rfl
  · exact (exec_keeps_cfg_and_pending hexec).1

/-! ### Completion (R181, R200) -/

theorem breach_eq_none_of_inContract {c : Config} {q : Request} (h : q.inContract c = true) :
    breach c q = none := by
  cases q with
  | reset => rfl
  | rx p => rfl
  | tick inp => exact if_pos h
  | wire d bs => cases h

theorem breach_wire_of_decode_ok (c : Config) {d : Direction} {bs : List Byte} {i : Instr}
    (h : decode d bs = .ok i) : breach c (.wire d bs) = none := by
  simp [breach, h]

/-- Settles O40: neither kind of request breaks the contract, and one that does not is run. -/
theorem requestsInContractComplete : Obligations.RequestsInContractComplete := by
  intro s q rest hc hq hp
  have hb : breach s.cfg q = none := by
    rcases hq with hq | ⟨d, bs, i, rfl, hd⟩
    · exact breach_eq_none_of_inContract hq
    · exact breach_wire_of_decode_ok s.cfg hd
  obtain ⟨t, hstep, -, hpending⟩ := step_of_breach_eq_none hc hp hb
  exact ⟨t, hstep, hpending⟩

end Sys2Proof.Machine
end

section
/-! PROOFS. The first tick after `RESET` (spec/70_reset_and_hazards.md R192). -/

namespace Sys2Proof.Machine

/-! ### What each control asks for -/

@[simp] theorem newBaseline_self (c : Config) (v : Nat) : newBaseline c v v = v :=
  ite_self _

/-- A slider that reads its baseline asks for nothing (R103). -/
theorem controlPackets_slider_of_eq_last {inp : Snapshot} {s : State} {i : Fin 5}
    (h : s.sliderLast.get i = inp.sliderSample i) : controlPackets inp s (.slider i) = [] := by
  rw [controlPackets, h]
  exact if_neg (ne_true_of_eq_false (movedBeyond_self _ _))

/-- A knob that reads its baseline asks for nothing (R104). -/
theorem controlPackets_knob_of_eq_last {inp : Snapshot} {s : State} {i : Fin 4}
    (h : s.knobLast.get i = inp.knobSample i) : controlPackets inp s (.knob i) = [] := by
  rw [controlPackets, h]
  exact if_neg (ne_true_of_eq_false (movedBeyond_self _ _))

/-- A button that reads released where pressed is stored asks for its Note Off (R102). -/
theorem buttonPackets_released (id : Nat) :
    buttonPackets id 1#1 0#1 = [⟨0x08#8, 0x80#8, BitVec.ofNat 8 id, 0x00#8⟩] :=
  buttonPackets_of_ne id (by decide)

/-- Where no analog control asks for anything, the scan order does not show: the buttons follow in pairs. -/
theorem flatMap_scanSequence_of_silent_analog {α : Type} {f : Control → List α}
    (hslider : ∀ i, f (.slider i) = []) (hknob : ∀ i, f (.knob i) = []) (o : ScanOrder) :
    (scanSequence o).flatMap f = (List.finRange 5).flatMap fun i => f (.upper i) ++ f (.lower i) := by
  cases o with
  | grouped =>
    simp [scanSequence, List.flatMap_assoc, List.flatMap_map, hslider, hknob]
  | interleaved =>
    simp [scanSequence, List.flatMap_assoc, List.flatMap_map, hslider, hknob]

/-! ### The tick of released buttons and analog readings 0 -/

/-- Every button released, every analog reading 0. -/
def releasedAtZero : Snapshot := ⟨.const 1#1, .const 1#1, .const 0, .const 0⟩

theorem releasedAtZero_inRange (c : Config) : releasedAtZero.inRange c = true := by
  simp [Snapshot.inRange_iff, releasedAtZero]

@[simp] theorem releasedAtZero_sliderSample (i : Fin 5) : releasedAtZero.sliderSample i = 0 := by
  simp [Snapshot.sliderSample, releasedAtZero]

@[simp] theorem releasedAtZero_knobSample (i : Fin 4) : releasedAtZero.knobSample i = 0 := by
  simp [Snapshot.knobSample, releasedAtZero]

/-- From registers that are all 0 the buttons alone send, in pair order. -/
theorem afterTick_releasedAtZero_tx {s : State} (hupper : ∀ i, s.upperLast.get i = 0#1)
    (hlower : ∀ i, s.lowerLast.get i = 0#1) (hslider : ∀ i, s.sliderLast.get i = 0)
    (hknob : ∀ i, s.knobLast.get i = 0) :
    (s.afterTick releasedAtZero).tx = s.tx ++ (List.finRange 5).flatMap fun i =>
      [⟨0x08#8, 0x80#8, BitVec.ofNat 8 (s.cfg.upperId.get i), 0x00#8⟩,
       ⟨0x08#8, 0x80#8, BitVec.ofNat 8 (s.cfg.lowerId.get i), 0x00#8⟩] := by
  rw [State.afterTick_tx, flatMap_scanSequence_of_silent_analog
    (fun i => controlPackets_slider_of_eq_last (by simp [hslider]))
    fun i => controlPackets_knob_of_eq_last (by simp [hknob])]
  simp [controlPackets, releasedAtZero, hupper, hlower, buttonPackets_released]

/-- Settles O35: the closed form of the tick, in which only the buttons differ from what is stored. -/
theorem firstTickReleasesEveryButton : Obligations.FirstTickReleasesEveryButton := by
  intro c hwf hupper hlower hslider hknob
  obtain ⟨hc, -⟩ := c.wf_iff.1 hwf
  have hslider0 (i : Fin 5) : (State.resetWith c).sliderLast.get i = 0 := by
    simp [State.resetWith, hslider]
  have hknob0 (i : Fin 4) : (State.resetWith c).knobLast.get i = 0 := by
    simp [State.resetWith, hknob]
  have htx := afterTick_releasedAtZero_tx (s := State.resetWith c)
    (by simp [State.resetWith, hupper]) (by simp [State.resetWith, hlower]) hslider0 hknob0
  exact ⟨(State.resetWith c).afterTick releasedAtZero,
    exec_tick_of_inRange hc (releasedAtZero_inRange c), rfl, rfl,
    Five.ext_get fun i => by simp [hslider0], Four.ext_get fun i => by simp [hknob0], htx⟩

end Sys2Proof.Machine
end

section
/-! PROOFS. A tick and an `RX` commute (spec/70_reset_and_hazards.md R201): control by control, since a
control's step writes nothing an `RX` reads or writes, and reads nothing an `RX` writes. -/

namespace Sys2Proof.Machine

/-- Sending a packet and storing a control's reading touch nothing an `RX` reads or writes (R25, R30). -/
theorem rxOblivious_store_send (inp : Snapshot) (k : Control) (p : Packet) :
    RxOblivious fun s => k.store inp (s.send p) := by
  cases k <;>
    exact ⟨fun _ => rfl, fun _ => rfl, fun _ _ _ => rfl, fun _ => rfl, fun _ _ => rfl⟩

/-- The shape of all three control steps commutes with whatever commutes with the packet sent and the
register written. -/
theorem guardedSend_comm {w g : State → State}
    (hw : ∀ s p, w ((g s).send p) = g (w (s.send p))) (changed : Bool) (e : Except Refusal Packet)
    (s : State) :
    (if changed then andThen ((g s).emit e) fun t => .next (w t) else .next (g s)) =
      andThen (if changed then andThen (s.emit e) fun t => .next (w t) else .next s)
        fun t => .next (g t) := by
  cases changed with
  | false => rfl
  | true =>
    cases e with
    | ok p => simp [hw]
    | error r => rfl

/-- A control's step compares and encodes by the configuration and its own register, which an `RX`
keeps. -/
theorem controlStep_rxResult (inp : Snapshot) (r : DecodeResult) (s : State) (k : Control) :
    controlStep inp (rxResult r s) k =
      andThen (controlStep inp s k) fun t => .next (rxResult r t) := by
  have hframe := (rxResult_frame r s).1
  have hw (k : Control) (t : State) (p : Packet) :
      k.store inp ((rxResult r t).send p) = rxResult r (k.store inp (t.send p)) :=
    ((rxOblivious_store_send inp k p).rxResult_comm r t).symm
  cases k with
  | upper i =>
    simp only [controlStep, buttonStep, State.buttonLast, hframe.cfg, hframe.upperLast]
    exact guardedSend_comm (hw (.upper i)) _ _ s
  | lower i =>
    simp only [controlStep, buttonStep, State.buttonLast, hframe.cfg, hframe.lowerLast]
    exact guardedSend_comm (hw (.lower i)) _ _ s
  | slider i =>
    simp only [controlStep, sliderStep, hframe.cfg, hframe.sliderLast]
    exact guardedSend_comm (hw (.slider i)) _ _ s
  | knob i =>
    simp only [controlStep, knobStep, hframe.cfg, hframe.knobLast]
    exact guardedSend_comm (hw (.knob i)) _ _ s

theorem controlSteps_rxResult (inp : Snapshot) (r : DecodeResult) (ks : List Control) :
    ∀ s : State, controlSteps inp ks (rxResult r s) =
      andThen (controlSteps inp ks s) fun t => .next (rxResult r t) := by
  induction ks with
  | nil => intro s; rfl
  | cons k ks ih =>
    intro s
    simp only [controlSteps, controlStep_rxResult, andThen_assoc, andThen_next, ih]

theorem exec_tick_rxResult (inp : Snapshot) (r : DecodeResult) (s : State) :
    exec (.tick inp) (rxResult r s) =
      andThen (exec (.tick inp) s) fun t => .next (rxResult r t) := by
  show execTick inp (rxResult r s) = andThen (execTick inp s) _
  unfold execTick
  rw [(rxResult_frame r s).1.cfg]
  split
  · exact controlSteps_rxResult inp r _ s
  · rfl

/-- Settles O44: an `RX` runs to `rxResult` of its class, which every step of the tick commutes with. -/
theorem tickAndRxCommute : Obligations.TickAndRxCommute := by
  intro inp i s hi
  obtain ⟨r, hr⟩ := (isRx_iff_rxClass i).1 hi
  rw [exec_of_rxClass hr s, andThen_next, exec_tick_rxResult]
  exact congrArg _ (funext (exec_of_rxClass hr))

end Sys2Proof.Machine
end

section
/-! PROOFS. Encoding and decoding undo each other (spec/30_encoding.md R63 to R66, R69, R75, R81): which
instructions have a packet, the 22 rows put together, and the packet a decoded instruction came from. -/

namespace Sys2Proof

/-! ### Decoding undoes encoding -/

@[simp] theorem Packet.bytes_length (p : Packet) : p.bytes.length = 4 := rfl

theorem encode_of_encodePacket {i : Instr} {d : Direction} {p : Packet}
    (h : encodePacket i = some (d, p)) : encode i = some (d, p.bytes) := by
  rw [encode, h]
  rfl

/-- R81: only `TICK` and `RX_POLL` have no bit pattern. -/
theorem exists_encodePacket_or_tick_or_rxPoll (i : Instr) :
    (∃ d p, encodePacket i = some (d, p)) ∨ (∃ inp, i = .tick inp) ∨ ∃ p, i = .rxPoll p := by
  cases i
  case tick inp => exact .inr (.inl ⟨inp, rfl⟩)
  case rxPoll p => exact .inr (.inr ⟨p, rfl⟩)
  all_goals exact .inl ⟨_, _, rfl⟩

namespace Laws.DecodesBack

/-- The rows put together: every instruction decodes back. -/
theorem forall_instr (i : Instr) : Statement i := by
  cases i with
  | txNoteOn ch pitch vel => exact txNoteOn ch pitch vel
  | txNoteOff ch pitch vel => exact txNoteOff ch pitch vel
  | txCc ch ctrl val => exact txCc ch ctrl val
  | rxEmpty status data1 data2 => exact rxEmpty status data1 data2
  | rxCin0 b => exact rxCin0 b
  | rxCin1 b => exact rxCin1 b
  | rxCin2 b => exact rxCin2 b
  | rxCin3 b => exact rxCin3 b
  | rxCin4 b => exact rxCin4 b
  | rxCin5 b => exact rxCin5 b
  | rxCin6 b => exact rxCin6 b
  | rxCin7 b => exact rxCin7 b
  | rxCin8 b => exact rxCin8 b
  | rxCin9 b => exact rxCin9 b
  | rxCinA b => exact rxCinA b
  | rxCinB b => exact rxCinB b
  | rxCinC b => exact rxCinC b
  | rxCinD b => exact rxCinD b
  | rxCinE b => exact rxCinE b
  | rxCinF b => exact rxCinF b
  | tick inp => exact tick inp
  | rxPoll p => exact rxPoll p

end Laws.DecodesBack

/-- Settles O4: an instruction with a packet encodes to its four bytes, which its row's law decodes. -/
theorem decodeUndoesEncode : Obligations.DecodeUndoesEncode := by
  intro c i hwf
  refine (exists_encodePacket_or_tick_or_rxPoll i).imp_left fun ⟨d, p, hpacket⟩ => ?_
  have hencode := encode_of_encodePacket hpacket
  exact ⟨d, p.bytes, hencode, p.bytes_length, Laws.DecodesBack.forall_instr i c hwf d p.bytes hencode⟩

/-! ### Encoding undoes decoding -/

/-- Under a header that is not 0, the row a packet is read as writes its CIN and its body; the one row with
a condition, `RX_CIN0`, then has a cable that is not 0 (R70). -/
theorem encodePacket_decodeRx_of_cin {p : Packet} (k : Nibble) (hcin : p.cin = k)
    (hz : p.header ≠ 0x00#8) :
    encodePacket (decodeRx p) = some (.rx, rxPacket k p.body) ∧
      ∀ c : Config, (decodeRx p).wellFormed c = true := by
  have hcable : k = 0x0#4 → p.body.cable ≠ 0x0#4 := fun hk => Packet.cable_ne_zero (hcin.trans hk) hz
  rcases Machine.nibble_cases k with
      rfl | rfl | rfl | rfl | rfl | rfl | rfl | rfl | rfl | rfl | rfl | rfl | rfl | rfl | rfl | rfl <;>
    simp [decodeRx, hz, hcin, encodePacket, Instr.wellFormed, hcable]

/-- The row a received packet is read as encodes that packet, so no bit of it is dropped, and is well
formed (R75). -/
theorem encodePacket_decodeRx (p : Packet) :
    encodePacket (decodeRx p) = some (.rx, p) ∧ ∀ c : Config, (decodeRx p).wellFormed c = true := by
  by_cases hz : p.header = 0x00#8
  · obtain ⟨header, status, data1, data2⟩ := p
    obtain rfl : header = 0x00#8 := hz
    exact ⟨rfl, fun _ => rfl⟩
  · simpa only [rxPacket_of_packet] using encodePacket_decodeRx_of_cin p.cin rfl hz

/-- A packet read as sent is the one its row encodes, with operands in the encoder's domain. -/
theorem encodePacket_of_decodeTx {p : Packet} {i : Instr} (h : decodeTx p = some i) :
    encodePacket i = some (.tx, p) ∧ ∀ c : Config, i.wellFormed c = true := by
  obtain ⟨ch, a, b, hch, ha, hb, hrow⟩ := decodeTx_some h
  have hdomain : inEncodeDomain ch a b = true := (inEncodeDomain_iff ch a b).2 ⟨hch, ha, hb⟩
  rcases hrow with ⟨rfl, rfl⟩ | ⟨rfl, rfl⟩ | ⟨rfl, rfl⟩ <;> exact ⟨rfl, fun _ => hdomain⟩

/-- Settles O5: the bytes decoded are a packet's, and in either direction its row encodes that packet. -/
theorem encodeUndoesDecode : Obligations.EncodeUndoesDecode := by
  refine ⟨fun d bs i h => ?_, fun h st d1 d2 => ⟨_, decode_rx_bytes ⟨h, st, d1, d2⟩⟩⟩
  obtain ⟨p, rfl, ⟨rfl, rfl⟩ | ⟨rfl, hi⟩⟩ := decode_ok h
  · exact (encodePacket_decodeRx p).imp_left encode_of_encodePacket
  · exact (encodePacket_of_decodeTx hi).imp_left encode_of_encodePacket

end Sys2Proof
end

section
/-! PROOFS. The invariants of spec/10_state.md R37 and the packet law of spec/30_encoding.md R67: they hold
of every state at reset, and every instruction keeps them by its frame. -/

namespace Sys2Proof.Machine

open Sys2Proof.Claims

/-! ### At reset (R37, R40 to R43) -/

theorem State.Inv.of_atReset {c : Config} {t : State} (hwf : c.wf = true) (hcfg : t.cfg = c)
    (h : AtReset c t) : t.Inv := by
  subst hcfg
  obtain ⟨-, hslider, hknob⟩ := t.cfg.wf_iff.1 hwf
  obtain ⟨-, -, hsliderLast, hknobLast, hled, htx, hflushes⟩ := h
  exact {
    cfg_wf := hwf
    slider_range := by rwa [hsliderLast]
    knob_range := by rwa [hknobLast]
    led_length := by rw [hled, Config.nled]
    flush_length := by simp [hflushes]
    tx_ok := by simp [htx] }

theorem State.LedInv.of_atReset {c : Config} {t : State} (hcfg : t.cfg = c) (h : AtReset c t) :
    t.LedInv := by
  subst hcfg
  obtain ⟨-, -, -, -, hled, -, hflushes⟩ := h
  exact ⟨by simp [State.lastHanded, hled, hflushes], fun _ _ => by rw [hled]⟩

theorem reference_wf : Config.reference.wf = true := by decide

/-- Settles O2: the state right after reset is at reset, and the reference configuration is checked entry
by entry. -/
theorem resetStateHasTheInvariants : Obligations.ResetStateHasTheInvariants :=
  ⟨fun c hwf => ⟨.of_atReset hwf rfl (resetWith_atReset c), .of_atReset rfl (resetWith_atReset c)⟩,
    rfl, reference_wf⟩

/-! ### One instruction -/

/-- The invariants speak of the configuration, the analog registers, the buffer and the two logs only. -/
theorem State.Inv.of_eq {s t : State} (h : s.Inv) (hcfg : t.cfg = s.cfg)
    (hslider : t.sliderLast = s.sliderLast) (hknob : t.knobLast = s.knobLast) (hled : t.led = s.led)
    (hflushes : t.flushes = s.flushes) (htx : t.tx = s.tx) : t.Inv where
  cfg_wf := by rw [hcfg, h.cfg_wf]
  slider_range := by rw [hcfg, hslider]; exact h.slider_range
  knob_range := by rw [hcfg, hknob]; exact h.knob_range
  led_length := by rw [hcfg, hled, h.led_length]
  flush_length := by rw [hcfg, hflushes]; exact h.flush_length
  tx_ok := by rw [htx]; exact h.tx_ok

theorem SentSince.forall_sentPacketOk {s t : State} (h : SentSince s t)
    (hs : ∀ p ∈ s.tx, sentPacketOk p = true) : ∀ p ∈ t.tx, sentPacketOk p = true := by
  obtain ⟨l, htx, hl⟩ := h
  rw [htx]
  exact List.forall_mem_append.2 ⟨hs, hl⟩

/-- An `RX` keeps the length of the buffer, and so of what it flushes (R26, R31). -/
theorem rxResult_inv (r : DecodeResult) {s : State} (h : s.Inv) : (rxResult r s).Inv := by
  obtain ⟨hframe, -, hlength, -⟩ := rxResult_frame r s
  have hled : (rxResult r s).led.length = s.cfg.nled := hlength.trans h.led_length
  exact {
    cfg_wf := by rw [hframe.cfg, h.cfg_wf]
    slider_range := by rw [hframe.cfg, hframe.sliderLast]; exact h.slider_range
    knob_range := by rw [hframe.cfg, hframe.knobLast]; exact h.knob_range
    led_length := by rw [hframe.cfg, hled]
    flush_length := by
      rw [hframe.cfg]
      rcases rxResult_flushes_cases r s with hflushes | hflushes <;> rw [hflushes]
      · exact h.flush_length
      · exact List.forall_mem_append.2 ⟨h.flush_length, by simpa using hled⟩
    tx_ok := by rw [hframe.tx]; exact h.tx_ok }

/-- A tick stores only readings that passed its range check (R37, R173) and sends only packets of the
encode table. -/
theorem exec_tick_inv {inp : Snapshot} {s t : State} (h : s.Inv) (hexec : exec (.tick inp) s = .next t) :
    t.Inv := by
  obtain ⟨hrange, hsteps⟩ := execTick_eq_next.1 hexec
  have hframe := controlSteps_frame hsteps
  have hlast := controlSteps_lastOldOrRead hsteps
  exact {
    cfg_wf := by rw [hframe.cfg, h.cfg_wf]
    slider_range := fun i => by
      rw [hframe.cfg]
      rcases hlast.slider i with hi | hi <;> rw [hi]
      exacts [h.slider_range i, sliderSample_lt hrange i]
    knob_range := fun i => by
      rw [hframe.cfg]
      rcases hlast.knob i with hi | hi <;> rw [hi]
      exacts [h.knob_range i, knobSample_lt hrange i]
    led_length := by rw [hframe.cfg, hframe.led, h.led_length]
    flush_length := by rw [hframe.cfg, hframe.flushes]; exact h.flush_length
    tx_ok := (exec_sentSince hexec).forall_sentPacketOk h.tx_ok }

theorem exec_inv {i : Instr} {s t : State} (h : s.Inv) (hexec : exec i s = .next t) : t.Inv := by
  rcases instr_cases i with ⟨e, he⟩ | ⟨r, hr⟩ | ⟨inp, rfl⟩
  · obtain ⟨p, rfl⟩ := eq_withEncoded_of_txEvent he hexec
    exact h.of_eq rfl rfl rfl rfl rfl rfl
  · obtain rfl := eq_rxResult_of_rxClass hr hexec
    exact rxResult_inv r h
  · exact exec_tick_inv h hexec

/-- Settles O42: `RESET` establishes the invariants under the same configuration, and an instruction keeps
them. -/
theorem stepKeepsTheInvariants : Obligations.StepKeepsTheInvariants := by
  intro s t h hstep
  rcases step_eq_next hstep with ⟨-, rfl⟩ | ⟨q, rest, -, -, hreq⟩
  · exact h
  · have htaken : ({ s with pending := rest } : State).Inv := h.of_eq rfl rfl rfl rfl rfl rfl
    rcases hreq with ⟨-, rfl⟩ | ⟨i, -, hexec⟩
    · exact .of_atReset htaken.cfg_wf rfl (applyReset_atReset _)
    · exact exec_inv htaken hexec

end Sys2Proof.Machine
end

section
/-! PROOFS. What one step makes of the oldest request (spec/10_state.md R20, 60_exceptions.md R171, R181):
the instruction it runs, and the broken condition that a refusal names. -/

namespace Sys2Proof.Machine

open Sys2Proof.Claims

/-! ### The instruction that is run -/

/-- Settles O39: each form of request but `RESET` is run as its action, and with none a step is idle. -/
theorem stepRunsTheDecodedInstruction : Obligations.StepRunsTheDecodedInstruction := by
  intro s rest hc
  have runs {q : Request} {i : Instr} (hp : s.pending = q :: rest) (ha : q.action = .run i) :
      step s = exec i { s with pending := rest } := by
    obtain ⟨-, hrun, -⟩ := step_of_pending_cons hc hp
    exact hrun i ha
  exact ⟨fun d bs i hp hd _ => runs hp (by simp [Request.action, hd]), fun _ => step_of_pending_tick hc,
    fun _ hp => runs hp rfl, step_of_pending_nil⟩

/-! ### The condition a refusal names (R171) -/

/-- R10, by row of the button tables. -/
theorem idsInRange_iff_buttonIds_le (c : Config) :
    c.idsInRange = true ↔ ∀ row i, (buttonIds c row).get i ≤ 127 := by
  have rows (P : Row → Prop) : (∀ row, P row) ↔ P .upper ∧ P .lower :=
    ⟨fun h => ⟨h _, h _⟩, fun h row => by cases row; exacts [h.1, h.2]⟩
  simp only [rows, buttonIds, Config.idsInRange, List.all_eq_true, decide_eq_true_eq,
    List.forall_mem_append, Five.forall_mem_toList]

/-- The reason for which a configuration is refused holds of it. -/
theorem configRefusal_eq_some {c : Config} {r : Refusal} (h : configRefusal c = some r) :
    (r = .configR ∧ c.R < 7) ∨ (r = .configId ∧ ∃ row i, 127 < (buttonIds c row).get i) ∨
      (r = .configNled ∧ c.nled < 5) := by
  unfold configRefusal at h
  split_ifs at h with hR hids hnled <;> obtain rfl := Option.some.inj h
  · exact .inl ⟨rfl, hR⟩
  · rw [← Bool.not_eq_true, idsInRange_iff_buttonIds_le] at hids
    push Not at hids
    exact .inr (.inl ⟨rfl, hids⟩)
  · exact .inr (.inr ⟨rfl, hnled⟩)

/-- Only a tick out of range and bytes that do not decode break the contract of a request. -/
theorem breach_eq_some {c : Config} {q : Request} {r : Refusal} (h : breach c q = some r) :
    (r = .analogOutOfRange ∧ ∃ inp, q = .tick inp ∧ inp.inRange c = false) ∨
      ∃ e d bs, r = .undecodable e ∧ q = .wire d bs ∧ decode d bs = .error e := by
  cases q with
  | reset => cases h
  | rx p => cases h
  | tick inp =>
    obtain ⟨hrange, rfl⟩ : inp.inRange c = false ∧ .analogOutOfRange = r := by simpa [breach] using h
    exact .inl ⟨rfl, inp, rfl, hrange⟩
  | wire d bs =>
    cases hd : decode d bs with
    | ok i => simp [breach, hd] at h
    | error e =>
      obtain rfl : .undecodable e = r := by simpa [breach, hd] using h
      exact .inr ⟨e, d, bs, rfl, rfl, hd⟩

/-- A refused step had an oldest request, and its reason is the configuration's or that request's own. -/
theorem step_eq_refused {s : State} {r : Refusal} (h : step s = .refused r) :
    ∃ q rest, s.pending = q :: rest ∧
      (configRefusal s.cfg = some r ∨ s.cfg.admissible = true ∧ breach s.cfg q = some r) := by
  rcases fetch_cases s with ⟨hp, -⟩ | ⟨q, rest, r', hp, hconfig, hf⟩ | ⟨q, rest, hp, hc, -⟩
  · simp [step_of_pending_nil hp] at h
  · obtain rfl : r' = r := by simpa [step, hf] using h
    exact ⟨q, rest, hp, .inl hconfig⟩
  · refine ⟨q, rest, hp, .inr ⟨hc, ?_⟩⟩
    cases hb : breach s.cfg q with
    | none =>
      obtain ⟨t, hstep, -⟩ := step_of_breach_eq_none hc hp hb
      simp [hstep] at h
    | some r' =>
      obtain rfl : r' = r := by simpa [step_of_breach_eq_some hc hp hb] using h
      rfl

/-- Settles O41: a refusal is the configuration's or the oldest request's, and either names a condition
that holds. -/
theorem refusalsNameABrokenContract : Obligations.RefusalsNameABrokenContract := by
  refine ⟨fun s r h => ?_, fun s hp hc => exists_step_refused_of_not_admissible hc hp⟩
  obtain ⟨q, rest, hp, hreason⟩ := step_eq_refused h
  refine ⟨q, rest, hp, ?_⟩
  rcases hreason with hconfig | ⟨-, hbreach⟩
  · rcases configRefusal_eq_some hconfig with hR | hid | hnled
    exacts [.inl hR, .inr (.inl hid), .inr (.inr (.inl hnled))]
  · exact .inr (.inr (.inr (breach_eq_some hbreach)))

end Sys2Proof.Machine
end
